-- ==== Sys2Proof/Word.lean ====
section
/-! DEFINITION. The value types of the Machine (00_scope.md R8, R11). -/

namespace Sys2Proof

/-- The machine's native data unit: registers, the pc, memory cells and instructions
are 32 bits wide (00_scope.md R8, R11). -/
abbrev Word := BitVec 32

/-- A codec word (00_scope.md R8 `CWORD`, R11 `u64`). -/
abbrev CWord := BitVec 64

/-- A byte of the input and output streams (00_scope.md R11). -/
abbrev Byte := BitVec 8

/-- A general register number: every 3-bit value names a register (10_state.md R22). -/
abbrev RegIdx := BitVec 3

/-- The immediate field of the load-value format (30_encoding.md R93). -/
abbrev Imm := BitVec 25

/-- A segment identifier is a `Word` (00_scope.md R11). -/
abbrev SegId := Word

end Sys2Proof
end

