-- ==== Sys2Proof/Machine/Codec.lean ====
section
/-! DEFINITION. The bit-field codec: six pure functions over 64-bit words
(40_bitfield_codec.md), and the request and response records of the codec as a block.

All arithmetic is exact arithmetic on natural numbers or integers, narrowed at the end.
A value of the spec's type `i64` is an `Int` here: 92_eei_decisions.md D12 says that this agrees
on the common domain. DESIGN CHOICE, notes/assumptions/11.md. Safe. -/

namespace Sys2Proof.Machine

/-- The outcome of a codec call: a value, or one of the two outcomes without a value
(40_bitfield_codec.md R122, R123). That there is no value beside the last two is what
93_implementation_defined.md U5 asks for. -/
inductive CodecOutcome (α : Type) where
  | ok (v : α)
  /-- The value is not representable in the field: recoverable, no fault (R123). -/
  | doesNotFit
  /-- The precondition on width and offset fails: fatal for the caller (R122). -/
  | contractViolation
  deriving DecidableEq, Repr

/-- `ValidWidth` (40_bitfield_codec.md R121). -/
abbrev ValidWidth (width : Nat) : Prop := 1 ≤ width ∧ width ≤ 64

/-- `ValidField` (40_bitfield_codec.md R121). -/
abbrev ValidField (width lsb : Nat) : Prop := ValidWidth width ∧ width + lsb ≤ 64

/-- The signed range test of R125, without its precondition. -/
abbrev FitsSigned (value : Int) (width : Nat) : Prop :=
  -(2 : Int) ^ (width - 1) ≤ value ∧ value < (2 : Int) ^ (width - 1)

/-- The field `word[lsb + width - 1 : lsb]` as a number (R10, R126). -/
def fieldNat (word : CWord) (width lsb : Nat) : Nat := word.toNat / 2 ^ lsb % 2 ^ width

/-- `width`-bit two's complement of a signed number: the non-negative remainder
(40_bitfield_codec.md R133). -/
def toTwos (width : Nat) (value : Int) : Nat := (value % (2 : Int) ^ width).toNat

/-- A `width`-bit field read as a signed number (40_bitfield_codec.md R133). -/
def ofTwos (width : Nat) (field : Nat) : Int :=
  if 2 ^ (width - 1) ≤ field then (field : Int) - (2 : Int) ^ width else (field : Int)

/-- The field's bits, all ones, elsewhere zeros (the `m` of R128 and R129). -/
def fieldMask (width lsb : Nat) : CWord := BitVec.ofNat 64 ((2 ^ width - 1) * 2 ^ lsb)

/-- `word` with the field replaced by `field` (the last line of R128 and R129). -/
def replaceField (word : CWord) (width lsb field : Nat) : CWord :=
  (word &&& ~~~(fieldMask width lsb)) ||| BitVec.ofNat 64 (field * 2 ^ lsb)

/-- `fits_unsigned` (40_bitfield_codec.md R124). -/
def fitsUnsigned (value : CWord) (width : Nat) : CodecOutcome Bool :=
  if ValidWidth width then .ok (decide (value.toNat < 2 ^ width)) else .contractViolation

/-- `fits_signed` (40_bitfield_codec.md R125). -/
def fitsSigned (value : Int) (width : Nat) : CodecOutcome Bool :=
  if ValidWidth width then .ok (decide (FitsSigned value width)) else .contractViolation

/-- `get_unsigned` (40_bitfield_codec.md R126). -/
def getUnsigned (word : CWord) (width lsb : Nat) : CodecOutcome CWord :=
  if ValidField width lsb then .ok (BitVec.ofNat 64 (fieldNat word width lsb))
  else .contractViolation

/-- `get_signed` (40_bitfield_codec.md R127). -/
def getSigned (word : CWord) (width lsb : Nat) : CodecOutcome Int :=
  if ValidField width lsb then .ok (ofTwos width (fieldNat word width lsb))
  else .contractViolation

/-- `set_unsigned` (40_bitfield_codec.md R128); the precondition is tested first (R122). -/
def setUnsigned (word : CWord) (width lsb : Nat) (value : CWord) : CodecOutcome CWord :=
  if ValidField width lsb then
    if value.toNat < 2 ^ width then .ok (replaceField word width lsb value.toNat) else .doesNotFit
  else .contractViolation

/-- `set_signed` (40_bitfield_codec.md R129); the precondition is tested first (R122). -/
def setSigned (word : CWord) (width lsb : Nat) (value : Int) : CodecOutcome CWord :=
  if ValidField width lsb then
    if FitsSigned value width then .ok (replaceField word width lsb (toTwos width value))
    else .doesNotFit
  else .contractViolation

/-- Apply a function to the value of an outcome. -/
def CodecOutcome.mapOk {α β : Type} (f : α → β) : CodecOutcome α → CodecOutcome β
  | .ok v => .ok (f v)
  | .doesNotFit => .doesNotFit
  | .contractViolation => .contractViolation

/-- Continue a codec computation with its value. -/
def CodecOutcome.andThen {α β : Type} (x : CodecOutcome α) (f : α → CodecOutcome β) :
    CodecOutcome β :=
  match x with
  | .ok v => f v
  | .doesNotFit => .doesNotFit
  | .contractViolation => .contractViolation

/-- The 2-bit `outcome` field of a response (40_bitfield_codec.md R132). -/
def CodecOutcome.code {α : Type} : CodecOutcome α → BitVec 2
  | .ok _ => 0
  | .doesNotFit => 1
  | .contractViolation => 2

/-- A request to the codec as a block (40_bitfield_codec.md R132). -/
structure CodecRequest where
  fn : BitVec 3
  word : CWord
  width : BitVec 7
  lsb : BitVec 7
  value : CWord
  deriving DecidableEq, Repr

/-- A Boolean result on the response port: 1 for true, 0 for false (40_bitfield_codec.md R132). -/
def boolResult (b : Bool) : CWord := if b then 1#64 else 0#64

/-- The block's response, a function of the request alone (40_bitfield_codec.md R132). The
`result` field exists only where the outcome is `Ok` (93_implementation_defined.md U5). The
`value` of the signed functions is read in two's complement, and the result of `get_signed`
is given in two's complement. Function selects 6 and 7 answer `ContractViolation`. -/
def codecRespond (r : CodecRequest) : CodecOutcome CWord :=
  match r.fn.toNat with
  | 0 => (fitsUnsigned r.value r.width.toNat).mapOk boolResult
  | 1 => (fitsSigned r.value.toInt r.width.toNat).mapOk boolResult
  | 2 => getUnsigned r.word r.width.toNat r.lsb.toNat
  | 3 => (getSigned r.word r.width.toNat r.lsb.toNat).mapOk (BitVec.ofInt 64)
  | 4 => setUnsigned r.word r.width.toNat r.lsb.toNat r.value
  | 5 => setSigned r.word r.width.toNat r.lsb.toNat r.value.toInt
  | _ => .contractViolation

end Sys2Proof.Machine
end

