-- ==== Sys2Proof/Syntax.lean ====
section
/-! DEFINITION. The instructions: one constructor per row of spec/opcode_table.json. -/

namespace Sys2Proof

/-- A decoded instruction. Every three-register instruction carries all three register
fields, also those it does not use (30_encoding.md R92, R95). The two unrecognized opcodes
carry the whole word (30_encoding.md R95). -/
inductive Instr where
  /-- Conditional Move (42_data_ops.md R170). -/
  | cmov (a b c : RegIdx)
  /-- Segmented Load (43_segment_ops.md R190). -/
  | sload (a b c : RegIdx)
  /-- Segmented Store (43_segment_ops.md R191). -/
  | sstore (a b c : RegIdx)
  /-- Addition (42_data_ops.md R171). -/
  | add (a b c : RegIdx)
  /-- Multiplication (42_data_ops.md R172). -/
  | mul (a b c : RegIdx)
  /-- Division (42_data_ops.md R173). -/
  | div (a b c : RegIdx)
  /-- Bitwise NAND (42_data_ops.md R174). -/
  | nand (a b c : RegIdx)
  /-- Halt; no field is used (44_control_ops.md R210). -/
  | halt (a b c : RegIdx)
  /-- Map Segment; `a` is not used (43_segment_ops.md R192). -/
  | map (a b c : RegIdx)
  /-- Unmap Segment; `a` and `b` are not used (43_segment_ops.md R193). -/
  | unmap (a b c : RegIdx)
  /-- Output; `a` and `b` are not used (45_io_and_host.md R230). -/
  | out (a b c : RegIdx)
  /-- Input; `a` and `b` are not used (45_io_and_host.md R231). -/
  | inp (a b c : RegIdx)
  /-- Load Program; `a` is not used (44_control_ops.md R211). -/
  | loadp (a b c : RegIdx)
  /-- Load Value (42_data_ops.md R175). -/
  | loadv (a : RegIdx) (imm : Imm)
  /-- A word with opcode 14 (44_control_ops.md R212). -/
  | unrec14 (raw : Word)
  /-- A word with opcode 15 (44_control_ops.md R212). -/
  | unrec15 (raw : Word)
  deriving DecidableEq, Repr

end Sys2Proof
end

