-- ==== Sys2Proof/WellFormed.lean ====
section
/-! DEFINITION. The checks on an instruction that its types do not already make. -/

namespace Sys2Proof

/-- Register numbers and immediates are as wide as their fields, so every field value is legal
(30_encoding.md R100). What remains is that the raw word of an unrecognized instruction has the
opcode its constructor names (30_encoding.md R95, R99). -/
def Instr.wellFormed : Instr → Bool
  | .unrec14 raw => raw.extractLsb' 28 4 == 14#4
  | .unrec15 raw => raw.extractLsb' 28 4 == 15#4
  | .cmov .. | .sload .. | .sstore .. | .add .. | .mul .. | .div .. | .nand .. | .halt ..
  | .map .. | .unmap .. | .out .. | .inp .. | .loadp .. | .loadv .. => true

/-- The check as a proposition, for statements. -/
abbrev Instr.WellFormed (i : Instr) : Prop := i.wellFormed = true

end Sys2Proof
end

