-- ==== Sys2Proof/Decode.lean ====
section
/-! DEFINITION. The decoder, an application of the bit-field codec (30_encoding.md R94, R95),
and after it the encoder (30_encoding.md R102). -/

namespace Sys2Proof

/-- The opcode number of an instruction (30_encoding.md R96; the numbering is the spec's
decision D1). UNVERIFIED, notes/assumptions/13.md. Unsafe. -/
def Instr.opcode : Instr → Nat
  | .cmov .. => 0
  | .sload .. => 1
  | .sstore .. => 2
  | .add .. => 3
  | .mul .. => 4
  | .div .. => 5
  | .nand .. => 6
  | .halt .. => 7
  | .map .. => 8
  | .unmap .. => 9
  | .out .. => 10
  | .inp .. => 11
  | .loadp .. => 12
  | .loadv .. => 13
  | .unrec14 .. => 14
  | .unrec15 .. => 15

/-- Why the decoder gives no instruction. No word does this: the codec accepts all six of the
decoder's fields (30_encoding.md R94, 60_exceptions.md R266). -/
inductive DecodeReject where
  /-- The codec answered `ContractViolation`, so there is no field value to use
  (40_bitfield_codec.md R122). Safe: it cannot occur. -/
  | contractViolation
  deriving DecidableEq, Repr

/-- One field of an instruction word: `get_unsigned` of the word zero-extended to 64 bits
(30_encoding.md R94). -/
def decodeField (inst : Word) (width lsb : Nat) : Except DecodeReject CWord :=
  match Machine.getUnsigned (inst.setWidth 64) width lsb with
  | .ok v => .ok v
  | .doesNotFit => .error .contractViolation
  | .contractViolation => .error .contractViolation

/-- A register field of an instruction word. -/
def decodeReg (inst : Word) (lsb : Nat) : Except DecodeReject RegIdx :=
  (decodeField inst 3 lsb).map (fun v => v.setWidth 3)

/-- The constructor of each three-register opcode (30_encoding.md R96). -/
def threeRegister (op : Nat) (a b c : RegIdx) : Option Instr :=
  match op with
  | 0 => some (.cmov a b c)
  | 1 => some (.sload a b c)
  | 2 => some (.sstore a b c)
  | 3 => some (.add a b c)
  | 4 => some (.mul a b c)
  | 5 => some (.div a b c)
  | 6 => some (.nand a b c)
  | 7 => some (.halt a b c)
  | 8 => some (.map a b c)
  | 9 => some (.unmap a b c)
  | 10 => some (.out a b c)
  | 11 => some (.inp a b c)
  | 12 => some (.loadp a b c)
  | _ => none

/-- `Decode` (30_encoding.md R95). Bits [27:9] of a three-register word are not read (R98, the
spec's decision D3). UNVERIFIED, notes/assumptions/15.md. Unsafe. -/
def decode (inst : Word) : Except DecodeReject Instr := do
  let op ← decodeField inst 4 28
  let a ← decodeReg inst 6
  let b ← decodeReg inst 3
  let c ← decodeReg inst 0
  match threeRegister op.toNat a b c with
  | some i => pure i
  | none =>
    if op.toNat = 13 then
      let d ← decodeReg inst 25
      let imm ← decodeField inst 25 0
      pure (.loadv d (imm.setWidth 25))
    else if op.toNat = 14 then pure (.unrec14 inst)
    else pure (.unrec15 inst)

/-- The word of a three-register instruction; unused bits are zero (30_encoding.md R102). -/
def encodeThree (op : Nat) (a b c : RegIdx) : Word :=
  BitVec.ofNat 32 (op * 2 ^ 28 + a.toNat * 64 + b.toNat * 8 + c.toNat)

/-- The word of an instruction, by the formulas of 30_encoding.md R102. An unrecognized
instruction is its own word (R103, `.word`). -/
def encode : Instr → Word
  | .cmov a b c => encodeThree 0 a b c
  | .sload a b c => encodeThree 1 a b c
  | .sstore a b c => encodeThree 2 a b c
  | .add a b c => encodeThree 3 a b c
  | .mul a b c => encodeThree 4 a b c
  | .div a b c => encodeThree 5 a b c
  | .nand a b c => encodeThree 6 a b c
  | .halt a b c => encodeThree 7 a b c
  | .map a b c => encodeThree 8 a b c
  | .unmap a b c => encodeThree 9 a b c
  | .out a b c => encodeThree 10 a b c
  | .inp a b c => encodeThree 11 a b c
  | .loadp a b c => encodeThree 12 a b c
  | .loadv a imm => BitVec.ofNat 32 (13 * 2 ^ 28 + a.toNat * 2 ^ 25 + imm.toNat)
  | .unrec14 raw => raw
  | .unrec15 raw => raw

/-- The instruction the decoder reads from the table's bits: an instruction is one `Word`, and
bit 0 of the table is bit 0 of that `Word` (00_scope.md R10, 30_encoding.md R90). Bits above
`nbits` are zero. -/
def decodeTableWord (nbits w : Nat) : Option Instr :=
  match decode (BitVec.ofNat 32 (w % 2 ^ nbits)) with
  | .ok i => some i
  | .error _ => none

/-- The codec calls that build a three-register word from zero (30_encoding.md R104). -/
def codecEncodeThree (op : Nat) (a b c : CWord) : Machine.CodecOutcome CWord :=
  (Machine.setUnsigned 0#64 4 28 (BitVec.ofNat 64 op)).andThen fun w1 =>
  (Machine.setUnsigned w1 3 6 a).andThen fun w2 =>
  (Machine.setUnsigned w2 3 3 b).andThen fun w3 =>
  Machine.setUnsigned w3 3 0 c

/-- The codec calls that build a load-value word from zero (30_encoding.md R104). An immediate of
2^25 or more gives `DoesNotFit`. -/
def codecEncodeLoadValue (a imm : CWord) : Machine.CodecOutcome CWord :=
  (Machine.setUnsigned 0#64 4 28 13#64).andThen fun w1 =>
  (Machine.setUnsigned w1 3 25 a).andThen fun w2 =>
  Machine.setUnsigned w2 25 0 imm

end Sys2Proof
end

