-- ==== Sys2Proof/Machine/Assoc.lean ====
section
/-! DEFINITION. Sparse data by key: lists of key and value pairs, keys rising. The segment store
uses them for its mapping and for the words of a segment. -/

namespace Sys2Proof.Machine

/-- The value at a key, if the key is listed. -/
def Assoc.find {α : Type} (k : Nat) : List (Nat × α) → Option α
  | [] => none
  | (j, v) :: rest => if j = k then some v else Assoc.find k rest

/-- The list with the value at a key set; a key already listed is replaced. -/
def Assoc.put {α : Type} (k : Nat) (v : α) : List (Nat × α) → List (Nat × α)
  | [] => [(k, v)]
  | (j, w) :: rest =>
    if k < j then (k, v) :: (j, w) :: rest
    else if k = j then (k, v) :: rest
    else (j, w) :: Assoc.put k v rest

/-- The list without a key. -/
def Assoc.erase {α : Type} (k : Nat) (m : List (Nat × α)) : List (Nat × α) :=
  m.filter (fun e => e.1 != k)

/-- Keys strictly rising: the canonical form. -/
abbrev Assoc.Rising {α : Type} (m : List (Nat × α)) : Prop :=
  m.Pairwise (fun x y => x.1 < y.1)

end Sys2Proof.Machine
end

