-- ==== Sys2Proof/Config.lean ====
section
/-! DEFINITION. What an implementation of the Machine fixes (00_scope.md R9). -/

namespace Sys2Proof

/-- The parameters the spec leaves open. `PROG_WORDS` is the length of the image given to
`State.boot`, so it needs no field. Every other open point is settled by the spec itself
(92_eei_decisions.md D1 to D20). The value is held in the state, where no step writes it, so
that a statement about every state is a statement about every capacity.
DESIGN CHOICE, notes/assumptions/2.md. Safe where a statement ranges over every state. -/
structure Config where
  /-- `CAPACITY_WORDS`: how many words the segment store can hold; `none` is unbounded
  (20_memory.md R63). -/
  capacityWords : Option Nat
  deriving DecidableEq, Repr

/-- The spec's default: unbounded (20_memory.md R63). DESIGN CHOICE, notes/assumptions/2.md.
Unsafe: a machine of bounded memory has a fault that this configuration lacks. -/
def Config.default : Config := { capacityWords := none }

end Sys2Proof
end

