-- ==== Sys2Proof/Machine/State.lean ====
section
/-! DEFINITION. The state of the Machine as plain data (10_state.md R38), the reasons a step can
stop, and the state after reset (10_state.md R39). -/

namespace Sys2Proof.Machine

/-- The causes of a fatal fault, each with the values that `info` records for it
(60_exceptions.md R251, R253). -/
inductive Cause where
  /-- The identifier is not mapped (SLOAD, SSTORE, UNMAP, LOADP). -/
  | unmappedSegment (id : SegId)
  /-- The offset is not below the segment's length (instruction fetch, SLOAD, SSTORE). -/
  | offsetOutOfBounds (id : SegId) (off : Word)
  /-- The divisor is zero (DIV). -/
  | divideByZero
  /-- The value is above 255 (OUT). -/
  | outputOutOfRange (v : Word)
  /-- The identifier is 0 (UNMAP). -/
  | unmapProgramSegment
  /-- No capacity or no identifier is left (MAP). -/
  | resourceExhausted (n : Word)
  /-- A codec precondition fails; no instruction raises it (60_exceptions.md R266). -/
  | contractViolation
  deriving DecidableEq, Repr

/-- What a fault records beside its cause and the cause's values (60_exceptions.md R253). -/
structure FaultInfo where
  /-- The pc value from which the faulting instruction was, or was to be, fetched. -/
  index : Word
  /-- The instruction word; absent for a fetch fault. -/
  inst : Option Word
  deriving DecidableEq, Repr

/-- The run status (10_state.md R26). -/
inductive RunStatus where
  | running
  | halted
  | faulted (cause : Cause) (info : FaultInfo)
  deriving DecidableEq, Repr

/-- A segment: a sequence of `len` words (10_state.md R31). It is held as its length and the list
of its non-zero words by offset, offsets rising; an unlisted offset below `len` reads 0, which is
what a word never written reads as (20_memory.md R54, R57). DEDUCED, notes/assumptions/1.md.
Safe. -/
structure Segment where
  len : Nat
  cells : List (Nat × Word)
  deriving DecidableEq, Repr

/-- The segment store: the mapping, the pool of freed identifiers and the fresh-identifier counter
(10_state.md R31 to R33). -/
structure Store where
  /-- `seg`: the mapped identifiers, rising, each with its segment. -/
  seg : List (Nat × Segment)
  /-- `pool`: the head of the list is the top of the stack. -/
  pool : List SegId
  /-- `next_id`. -/
  nextId : Nat
  deriving DecidableEq, Repr

/-- One answer of the environment to an input request (41_engine_cycle.md R157). -/
inductive InputAnswer where
  | byte (v : Byte)
  | endOfStream
  deriving DecidableEq, Repr

/-- The environment's side of the input stream (45_io_and_host.md R237, 41_engine_cycle.md R158).
It is the model's own field: the spec leaves the stream to the environment (10_state.md R36).
DESIGN CHOICE, notes/assumptions/4.md. Safe: statements range over every stream. -/
structure InputStream where
  /-- The answers that stand ready, in the order in which they are given. -/
  answers : List InputAnswer
  /-- Whether every request after the last of these answers gets `EndOfStream`. If not, the
  environment has not answered yet, and an IN waits. -/
  ended : Bool
  deriving DecidableEq, Repr

/-- The complete state of the Machine (10_state.md R38), with two fields of the model's own: the
environment's input stream and the implementation's configuration. -/
structure State where
  /-- `x[0]` to `x[7]` (10_state.md R20). -/
  regs : Vector Word 8
  /-- The program counter, a word index into segment 0 (10_state.md R23). -/
  pc : Word
  /-- The run status (10_state.md R26). -/
  status : RunStatus
  /-- `seg`, `pool` and `next_id` (10_state.md R31 to R33). -/
  store : Store
  /-- The bytes emitted so far, in program order (10_state.md R36). -/
  out : List Byte
  /-- The environment's input stream. -/
  input : InputStream
  /-- The implementation's configuration; no step writes it. -/
  config : Config
  deriving DecidableEq, Repr

/-- Why no step is enabled: the run has ended (41_engine_cycle.md R155), or an IN waits for the
environment (41_engine_cycle.md R158). A fatal fault of an instruction is not one of these: it is a
next state whose status is `Faulted` (60_exceptions.md R252). -/
inductive Fault where
  /-- Raised by `step` when the status is `Halted`. Safe: the Machine takes no step either
  (DEDUCED, notes/assumptions/6.md). -/
  | halted
  /-- Raised by `step` when the status is `Faulted`. Safe: the Machine takes no step either
  (DEDUCED, notes/assumptions/6.md). -/
  | faulted (cause : Cause)
  /-- Raised by IN when the environment has not answered. It is the `stuck` of
  93_implementation_defined.md U7: the run has not ended and the state stays as it is, so the step
  is enabled as soon as there is an answer. Safe: the Machine takes no step either (DEDUCED,
  notes/assumptions/5.md). -/
  | awaitingInput
  deriving DecidableEq, Repr

/-- Why an instruction has no meaning. -/
inductive Refusal where
  /-- Raised by an arm of `exec` that has no meaning yet; no arm does. Safe. -/
  | notModelled (mnemonic : String)
  deriving DecidableEq, Repr

/-- What a step of this machine answers. -/
abbrev Outcome := Host.Outcome State Fault Refusal

/-- The store after reset with an image of no words: segment 0 alone is mapped
(10_state.md R39). -/
def Store.reset : Store := { seg := [(0, { len := 0, cells := [] })], pool := [], nextId := 1 }

/-- The state right after reset (10_state.md R39, 70_reset_and_hazards.md R280). The image is the
loader's to supply; here it is the one of no words, which the spec allows (45_io_and_host.md R232),
and `State.boot` seeds any other. DESIGN CHOICE, notes/assumptions/3.md (the image) and
notes/assumptions/4.md (the input stream). Unsafe if a statement rests on either; none does. -/
def State.reset : State where
  regs := Vector.replicate 8 0#32
  pc := 0#32
  status := .running
  store := Store.reset
  out := []
  input := { answers := [], ended := true }
  config := Config.default

end Sys2Proof.Machine
end

