-- ==== Sys2Proof/Machine/SegmentStore.lean ====
section
/-! DEFINITION. The segment store: segments, the canonical form of memory, and the five store
operations (20_memory.md R55 to R59). -/

namespace Sys2Proof.Machine

/-- A segment of `n` words, all zero (20_memory.md R57). -/
def Segment.zeros (n : Nat) : Segment := { len := n, cells := [] }

/-- The word at an offset below the length; an unlisted offset reads 0 (20_memory.md R54). -/
def Segment.get (g : Segment) (off : Nat) : Word := (Assoc.find off g.cells).getD 0#32

/-- The segment with one word set. Writing 0 removes the entry, so that equal segments are equal
data. -/
def Segment.set (g : Segment) (off : Nat) (v : Word) : Segment :=
  if v = 0#32 then { g with cells := Assoc.erase off g.cells }
  else { g with cells := Assoc.put off v g.cells }

/-- The non-zero words of a list of words, numbered from `k`. -/
def cellsFrom (k : Nat) : List Word → List (Nat × Word)
  | [] => []
  | w :: rest => if w = 0#32 then cellsFrom (k + 1) rest else (k, w) :: cellsFrom (k + 1) rest

/-- The segment that holds a sequence of words. -/
def Segment.ofWords (ws : List Word) : Segment := { len := ws.length, cells := cellsFrom 0 ws }

/-- The segment as the sequence of words it is (10_state.md R31). -/
def Segment.words (g : Segment) : List Word := (List.range g.len).map g.get

/-- A segment is in canonical form, and its length is that of a segment (20_memory.md R62). -/
abbrev Segment.wf (g : Segment) : Prop :=
  g.len < 2 ^ 32 ∧ Assoc.Rising g.cells ∧ ∀ c ∈ g.cells, c.1 < g.len ∧ c.2 ≠ 0#32

/-- The mapping is in canonical form: identifiers rising, each a 32-bit number, each segment in
canonical form. -/
abbrev Memory.wf (m : List (Nat × Segment)) : Prop :=
  Assoc.Rising m ∧ ∀ e ∈ m, e.1 < 2 ^ 32 ∧ e.2.wf

/-- `seg[id]`, or nothing where `id` is unmapped. -/
def Store.segment (st : Store) (id : SegId) : Option Segment := Assoc.find id.toNat st.seg

/-- The word at an address, or nothing where the address is not valid (20_memory.md R50). -/
def Store.word (st : Store) (id : SegId) (off : Word) : Option Word :=
  match st.segment id with
  | none => none
  | some g => if off.toNat < g.len then some (g.get off.toNat) else none

/-- `seg[id]` as a sequence of words, or nothing where `id` is unmapped (10_state.md R31). -/
def Store.words (st : Store) (id : SegId) : Option (List Word) := (st.segment id).map Segment.words

/-- `MemRead((id, off), 1)` (20_memory.md R55): the identifier is checked first. -/
def Store.read (st : Store) (id : SegId) (off : Word) : Except Cause Word :=
  match st.segment id with
  | none => .error (.unmappedSegment id)
  | some g =>
    if off.toNat < g.len then .ok (g.get off.toNat) else .error (.offsetOutOfBounds id off)

/-- The store with `seg[id]` set to a segment. -/
def Store.setSegment (st : Store) (id : SegId) (g : Segment) : Store :=
  { st with seg := Assoc.put id.toNat g st.seg }

/-- `MemWrite((id, off), 1, v)` (20_memory.md R56). -/
def Store.write (st : Store) (id : SegId) (off v : Word) : Except Cause Store :=
  match st.segment id with
  | none => .error (.unmappedSegment id)
  | some g =>
    if off.toNat < g.len then .ok (st.setSegment id (g.set off.toNat v))
    else .error (.offsetOutOfBounds id off)

/-- The total length of the mapped segments, segment 0 included (20_memory.md R63). -/
def Store.totalWords (st : Store) : Nat := (st.seg.map (fun e => e.2.len)).sum

/-- `CapacityAllows(n)` (20_memory.md R63). -/
def Store.capacityAllows (st : Store) (cfg : Config) (n : Nat) : Bool :=
  match cfg.capacityWords with
  | none => true
  | some limit => decide (n + st.totalWords ≤ limit)

/-- `Allocate(n)` (20_memory.md R57): the top of the pool if there is one, else a fresh identifier.
The order of reuse is the spec's decision D5. UNVERIFIED, notes/assumptions/17.md. Unsafe for
statements about identifier values. The test for the end of the identifiers is `2^32 <= next_id`
where the spec writes `=`; the two agree in every state that a run reaches. DESIGN CHOICE,
notes/assumptions/8.md. Safe. -/
def Store.allocate (st : Store) (cfg : Config) (n : Word) : Except Cause (SegId × Store) :=
  if st.capacityAllows cfg n.toNat then
    match st.pool with
    | id :: rest =>
      .ok (id, { st with seg := Assoc.put id.toNat (Segment.zeros n.toNat) st.seg, pool := rest })
    | [] =>
      if 2 ^ 32 ≤ st.nextId then .error (.resourceExhausted n)
      else
        .ok (BitVec.ofNat 32 st.nextId,
          { st with
            seg := Assoc.put st.nextId (Segment.zeros n.toNat) st.seg
            nextId := st.nextId + 1 })
  else .error (.resourceExhausted n)

/-- `Free(id)` (20_memory.md R58). -/
def Store.free (st : Store) (id : SegId) : Except Cause Store :=
  if id = 0#32 then .error .unmapProgramSegment
  else
    match st.segment id with
    | none => .error (.unmappedSegment id)
    | some _ => .ok { st with seg := Assoc.erase id.toNat st.seg, pool := id :: st.pool }

/-- `ReplaceProgram(id)` (20_memory.md R59). -/
def Store.replaceProgram (st : Store) (id : SegId) : Except Cause Store :=
  match st.segment id with
  | none => .error (.unmappedSegment id)
  | some g => .ok (st.setSegment 0#32 g)

end Sys2Proof.Machine
end

