-- ==== Sys2Proof/Machine/Ops.lean ====
section
/-! DEFINITION. The named operations over the state: registers, pc, faults, streams, fetch. -/

namespace Sys2Proof.Machine

/-- `x[i]` (00_scope.md R12). No register is hardwired (10_state.md R21). -/
def State.reg (s : State) (i : RegIdx) : Word := s.regs[i.toNat]'i.isLt

/-- `x[i] <- v` (00_scope.md R12). -/
def State.setReg (s : State) (i : RegIdx) (v : Word) : State :=
  { s with regs := s.regs.set i.toNat v i.isLt }

/-- `pc <- t` (00_scope.md R12). -/
def State.setPc (s : State) (t : Word) : State := { s with pc := t }

/-- The increment of the step, modulo 2^32 (10_state.md R25, 41_engine_cycle.md R152). -/
def State.advance (s : State) : State := s.setPc (s.pc + 1#32)

/-- The store replaced. -/
def State.setStore (s : State) (st : Store) : State := { s with store := st }

/-- The input stream replaced. -/
def State.setInput (s : State) (q : InputStream) : State := { s with input := q }

/-- The status replaced. -/
def State.setStatus (s : State) (r : RunStatus) : State := { s with status := r }

/-- The code of a cause (60_exceptions.md R251). -/
def Cause.code : Cause → Nat
  | .unmappedSegment _ => 1
  | .offsetOutOfBounds _ _ => 2
  | .divideByZero => 3
  | .outputOutOfRange _ => 4
  | .unmapProgramSegment => 5
  | .resourceExhausted _ => 6
  | .contractViolation => 7

/-- Take a fatal fault (60_exceptions.md R252): the status becomes `Faulted` with the cause and the
record of R253. Nothing else changes: there is no handler, no vector, no saved state and no mode
(R257). There is no return from a fault (R258); only reset leaves `Faulted`
(70_reset_and_hazards.md R286). A record names the fault for the model only
(92_eei_decisions.md D7). UNVERIFIED, notes/assumptions/18.md. Safe for the end of a run. -/
def State.takeFault (s : State) (cause : Cause) (index : Word) (inst : Option Word) : State :=
  s.setStatus (.faulted cause { index := index, inst := inst })

/-- A fault of the fetch: `index` is the pc, which the step has not incremented, and there is no
instruction word (60_exceptions.md R253, R255). -/
def State.raiseAtFetch (s : State) (cause : Cause) : State := s.takeFault cause s.pc none

/-- A fault of the dispatch: the pc holds `p + 1`, so `index` is one less, and the instruction word
is what segment 0 holds there (60_exceptions.md R253, R255). The word is read again because the
instruction in execution is not state (10_state.md R38); a faulting instruction has written
nothing, so it is the word that was fetched. DEDUCED, notes/assumptions/7.md. Safe. -/
def State.raise (s : State) (cause : Cause) : State :=
  s.takeFault cause (s.pc - 1#32) (s.store.word 0#32 (s.pc - 1#32))

/-- End an instruction that can fault: go on with the value, or raise the cause. -/
def State.orRaise {α : Type} (s : State) (r : Except Cause α) (k : α → State) : Outcome :=
  match r with
  | .ok v => .next (k v)
  | .error cause => .next (s.raise cause)

/-- `Emit(b)` (45_io_and_host.md R236). The stream accepts every byte (the spec's decision D17).
UNVERIFIED, notes/assumptions/19.md. Unsafe for statements that a run ends. -/
def State.emit (s : State) (b : Byte) : State := { s with out := s.out ++ [b] }

/-- What `NextInput()` gives (45_io_and_host.md R237): an answer with the stream after it, or
nothing, when the environment has not answered (41_engine_cycle.md R158). After the last answer
of a stream that has ended, every request gets `EndOfStream` (the spec's decision D16). -/
def InputStream.next (q : InputStream) : Option (InputAnswer × InputStream) :=
  match q.answers with
  | a :: rest => some (a, { q with answers := rest })
  | [] => if q.ended then some (.endOfStream, q) else none

/-- The value of an answer in the destination register (45_io_and_host.md R231): the byte
zero-extended, or the sentinel. -/
def InputAnswer.value : InputAnswer → Word
  | .byte v => v.setWidth 32
  | .endOfStream => 0xFFFFFFFF#32

/-- The fetch: the store's read at `(0, pc)` (41_engine_cycle.md R151). -/
def State.fetch (s : State) : Except Cause Word := s.store.read 0#32 s.pc

end Sys2Proof.Machine
end

