-- ==== Sys2Proof/Machine/Operands.lean ====
section
/-! DEFINITION. The operand forms (00_scope.md R13, 43_segment_ops.md R190, R191,
30_encoding.md R97). A plain register operand is `State.reg`. -/

namespace Sys2Proof.Machine

/-- The address SLOAD reads: the pair `(x[b], x[c])` (43_segment_ops.md R190). -/
def loadAddress (s : State) (b c : RegIdx) : SegId × Word := (s.reg b, s.reg c)

/-- The address SSTORE writes: the pair `(x[a], x[b])` (43_segment_ops.md R191). -/
def storeAddress (s : State) (a b : RegIdx) : SegId × Word := (s.reg a, s.reg b)

/-- The immediate, zero-extended, neither scaled nor sign-extended (30_encoding.md R97). -/
def immediate (imm : Imm) : Word := imm.setWidth 32

/-- The sum modulo 2^32 (42_data_ops.md R171). -/
def wordAdd (u v : Word) : Word := BitVec.ofNat 32 ((u.toNat + v.toNat) % 2 ^ 32)

/-- The product modulo 2^32 (42_data_ops.md R172). -/
def wordMul (u v : Word) : Word := BitVec.ofNat 32 (u.toNat * v.toNat % 2 ^ 32)

/-- The unsigned floor quotient; a zero divisor is a fault (42_data_ops.md R173). -/
def wordDiv (u v : Word) : Except Cause Word :=
  if v = 0#32 then .error .divideByZero else .ok (BitVec.ofNat 32 (u.toNat / v.toNat))

/-- The complement of the conjunction within 32 bits (42_data_ops.md R174). -/
def wordNand (u v : Word) : Word := ~~~(u &&& v)

/-- The byte OUT emits; a value above 255 is a fault and is not truncated
(45_io_and_host.md R230). -/
def outputByte (v : Word) : Except Cause Byte :=
  if 255 < v.toNat then .error (.outputOutOfRange v) else .ok (v.setWidth 8)

end Sys2Proof.Machine
end

