-- ==== Sys2Proof/Machine/ControlOps.lean ====
section
/-! DEFINITION. The control operations: HALT, LOADP and the unrecognized opcodes
(44_control_ops.md). The pc already holds `p + 1` when a meaning starts. -/

namespace Sys2Proof.Machine

/-- HALT (44_control_ops.md R210). -/
def execHalt (s : State) : Outcome := .next (s.setStatus .halted)

/-- LOADP (44_control_ops.md R211): with `x[b] = 0` nothing is copied; both registers are read
first. -/
def execLoadp (b c : RegIdx) (s : State) : Outcome :=
  if s.reg b = 0#32 then .next (s.setPc (s.reg c))
  else s.orRaise (s.store.replaceProgram (s.reg b)) (fun st => (s.setStore st).setPc (s.reg c))

/-- An unrecognized opcode is inert (the spec's decision D4): the step has advanced the pc, and
nothing else changes (44_control_ops.md R212). UNVERIFIED, notes/assumptions/16.md. Unsafe. -/
def inert (s : State) : Outcome := .next s

/-- A word with opcode 14 (44_control_ops.md R212). -/
def execUnrec14 (s : State) : Outcome := inert s

/-- A word with opcode 15 (44_control_ops.md R212). -/
def execUnrec15 (s : State) : Outcome := inert s

end Sys2Proof.Machine
end

