-- ==== Sys2Proof/Machine/Flags.lean ====
section
/-! DEFINITION. The Machine has no flags, condition codes or predicates (10_state.md R28), so no
instruction computes one. The one condition an instruction tests is that of a general register. -/

namespace Sys2Proof.Machine

/-- The condition of CMOV: the whole word is not zero (42_data_ops.md R170). -/
def isNonZero (v : Word) : Bool := v != 0#32

end Sys2Proof.Machine
end

