-- ==== Sys2Proof/Machine/DataOps.lean ====
section
/-! DEFINITION. The data operations: CMOV, ADD, MUL, DIV, NAND, LOADV (42_data_ops.md). The pc
already holds `p + 1` when a meaning starts. -/

namespace Sys2Proof.Machine

/-- CMOV (42_data_ops.md R170). -/
def execCmov (a b c : RegIdx) (s : State) : Outcome :=
  .next (if isNonZero (s.reg c) then s.setReg a (s.reg b) else s)

/-- ADD (42_data_ops.md R171). -/
def execAdd (a b c : RegIdx) (s : State) : Outcome :=
  .next (s.setReg a (wordAdd (s.reg b) (s.reg c)))

/-- MUL (42_data_ops.md R172). -/
def execMul (a b c : RegIdx) (s : State) : Outcome :=
  .next (s.setReg a (wordMul (s.reg b) (s.reg c)))

/-- DIV (42_data_ops.md R173). -/
def execDiv (a b c : RegIdx) (s : State) : Outcome :=
  s.orRaise (wordDiv (s.reg b) (s.reg c)) (fun q => s.setReg a q)

/-- NAND (42_data_ops.md R174). -/
def execNand (a b c : RegIdx) (s : State) : Outcome :=
  .next (s.setReg a (wordNand (s.reg b) (s.reg c)))

/-- LOADV (42_data_ops.md R175). -/
def execLoadv (a : RegIdx) (imm : Imm) (s : State) : Outcome :=
  .next (s.setReg a (immediate imm))

end Sys2Proof.Machine
end

