-- ==== Sys2Proof/Machine/IoOps.lean ====
section
/-! DEFINITION. Output and input: OUT, IN (45_io_and_host.md). The pc already holds `p + 1` when a
meaning starts. -/

namespace Sys2Proof.Machine

/-- OUT (45_io_and_host.md R230). -/
def execOut (c : RegIdx) (s : State) : Outcome :=
  s.orRaise (outputByte (s.reg c)) (fun b => s.emit b)

/-- IN (45_io_and_host.md R231): the destination is register C. With no answer ready the
step is not enabled: there is no next state, and the state waits as it is (41_engine_cycle.md R158,
93_implementation_defined.md U7). DEDUCED, notes/assumptions/5.md. Safe. -/
def execInp (c : RegIdx) (s : State) : Outcome :=
  match s.input.next with
  | some (r, q) => .next ((s.setInput q).setReg c r.value)
  | none => .fault .awaitingInput

end Sys2Proof.Machine
end

