-- ==== Sys2Proof/Machine/SegmentOps.lean ====
section
/-! DEFINITION. The segment operations: SLOAD, SSTORE, MAP, UNMAP (43_segment_ops.md). The pc
already holds `p + 1` when a meaning starts. -/

namespace Sys2Proof.Machine

/-- SLOAD (43_segment_ops.md R190). -/
def execSload (a b c : RegIdx) (s : State) : Outcome :=
  s.orRaise (s.store.read (loadAddress s b c).1 (loadAddress s b c).2) (fun v => s.setReg a v)

/-- SSTORE (43_segment_ops.md R191). -/
def execSstore (a b c : RegIdx) (s : State) : Outcome :=
  s.orRaise (s.store.write (storeAddress s a b).1 (storeAddress s a b).2 (s.reg c))
    (fun st => s.setStore st)

/-- MAP (43_segment_ops.md R192). -/
def execMap (b c : RegIdx) (s : State) : Outcome :=
  s.orRaise (s.store.allocate s.config (s.reg c)) (fun r => (s.setStore r.2).setReg b r.1)

/-- UNMAP (43_segment_ops.md R193). -/
def execUnmap (c : RegIdx) (s : State) : Outcome :=
  s.orRaise (s.store.free (s.reg c)) (fun st => s.setStore st)

end Sys2Proof.Machine
end

