-- ==== Sys2Proof/Machine/Dispatch.lean ====
section
/-! DEFINITION. `Execute`: one arm per instruction (41_engine_cycle.md R154). A register field that
an instruction does not use is ignored (30_encoding.md R92). -/

namespace Sys2Proof.Machine

def exec (i : Instr) (s : State) : Host.Outcome State Fault Refusal :=
  match i with
  | .cmov a b c => Sys2Proof.Machine.execCmov a b c s
  | .sload a b c => Sys2Proof.Machine.execSload a b c s
  | .sstore a b c => Sys2Proof.Machine.execSstore a b c s
  | .add a b c => Sys2Proof.Machine.execAdd a b c s
  | .mul a b c => Sys2Proof.Machine.execMul a b c s
  | .div a b c => Sys2Proof.Machine.execDiv a b c s
  | .nand a b c => Sys2Proof.Machine.execNand a b c s
  | .halt _ _ _ => Sys2Proof.Machine.execHalt s
  | .map _ b c => Sys2Proof.Machine.execMap b c s
  | .unmap _ _ c => Sys2Proof.Machine.execUnmap c s
  | .out _ _ c => Sys2Proof.Machine.execOut c s
  | .inp _ _ c => Sys2Proof.Machine.execInp c s
  | .loadp _ b c => Sys2Proof.Machine.execLoadp b c s
  | .loadv a imm => Sys2Proof.Machine.execLoadv a imm s
  | .unrec14 _ => Sys2Proof.Machine.execUnrec14 s
  | .unrec15 _ => Sys2Proof.Machine.execUnrec15 s

end Sys2Proof.Machine
end

