-- ==== Sys2Proof/Machine/HostInterface.lean ====
section
/-! DEFINITION. What the host can do (45_io_and_host.md R238): seed the program, answer input,
observe the end. Accepting output is `State.out`. -/

namespace Sys2Proof.Machine

/-- Four image bytes, the most significant first, as a word (20_memory.md R52). -/
def imageWord (b0 b1 b2 b3 : Byte) : Word :=
  BitVec.ofNat 32 (b0.toNat * 2 ^ 24 + b1.toNat * 2 ^ 16 + b2.toNat * 2 ^ 8 + b3.toNat)

/-- The words of a program image; an image with a trailing partial word never reaches the Machine
(45_io_and_host.md R232). -/
def imageWords : List Byte → Option (List Word)
  | [] => some []
  | b0 :: b1 :: b2 :: b3 :: rest => (imageWords rest).map (fun ws => imageWord b0 b1 b2 b3 :: ws)
  | [_] | [_, _] | [_, _, _] => none

/-- The Machine at reset with segment 0 seeded (10_state.md R39, 45_io_and_host.md R232,
70_reset_and_hazards.md R280, R286). Nothing of an earlier run enters (R286, the spec's
decision D20). -/
def State.boot (cfg : Config) (program : List Word) (input : InputStream) : State :=
  { State.reset with
    store := { Store.reset with seg := [(0, Segment.ofWords program)] }
    input := input
    config := cfg }

/-- A stream of bytes fixed before the run (45_io_and_host.md R237, the spec's decision D16). -/
def InputStream.ofBytes (bytes : List Byte) : InputStream :=
  { answers := bytes.map InputAnswer.byte, ended := true }

/-- The environment gives one more answer (45_io_and_host.md R238). -/
def State.answerInput (s : State) (r : InputAnswer) : State :=
  { s with input := { s.input with answers := s.input.answers ++ [r] } }

/-- The environment ends the stream (45_io_and_host.md R237). -/
def State.endInput (s : State) : State := { s with input := { s.input with ended := true } }

/-- How a run ended, as the host sees it (45_io_and_host.md R235). -/
inductive RunEnd where
  | clean
  | abnormal
  deriving DecidableEq, Repr

/-- What the host observes of the end: clean after HALT, abnormal after a fatal fault, nothing
while the run goes on (45_io_and_host.md R235, 41_engine_cycle.md R159). -/
def State.runEnd (s : State) : Option RunEnd :=
  match s.status with
  | .running => none
  | .halted => some .clean
  | .faulted _ _ => some .abnormal

end Sys2Proof.Machine
end

