-- ==== Sys2Proof/Machine/Step.lean ====
section
/-! DEFINITION. One step of the engine (41_engine_cycle.md R150), and the placing of one
instruction where the step fetches. -/

namespace Sys2Proof.Machine

/-- `Step` (41_engine_cycle.md R150): fetch, increment, decode, dispatch. There is no step from
`Halted` or `Faulted` (R155): the step answers a fault that names the end. A fault of an
instruction is a next state with the status `Faulted` (60_exceptions.md R252). The decoder gives an
instruction for every word; the arm for a contract violation, which 60_exceptions.md R266 rules
out, raises code 7. DEDUCED, notes/assumptions/10.md. Safe. -/
def step (s : State) : Host.Outcome State Fault Refusal :=
  match s.status with
  | .halted => .fault .halted
  | .faulted cause _ => .fault (.faulted cause)
  | .running =>
    match s.fetch with
    | .error cause => .next (s.raiseAtFetch cause)
    | .ok inst =>
      match decode inst with
      | .error .contractViolation => .next (s.advance.raise .contractViolation)
      | .ok i => exec i s.advance

/-- `s` with one instruction stored where `step` fetches next, as the loader would have seeded it
(45_io_and_host.md R232): segment 0 is lengthened, if need be, to hold index `pc`, the word there
is the instruction, and the status is `Running`, without which there is no step. DESIGN CHOICE,
notes/assumptions/20.md. Safe: no step does this. -/
def State.withFetchWord (s : State) (nbits w : Nat) : State :=
  let program := (s.store.segment 0#32).getD (Segment.zeros 0)
  let longer := { program with len := max program.len (s.pc.toNat + 1) }
  let loaded := longer.set s.pc.toNat (BitVec.ofNat 32 (w % 2 ^ nbits))
  { s with store := s.store.setSegment 0#32 loaded, status := .running }

end Sys2Proof.Machine
end

