-- ==== Sys2Proof/Safety.lean ====
section
/-! DEFINITION. The terms in which statements speak of the Machine: the invariant of the store,
what a fault needs, what an instruction leaves alone. -/

namespace Sys2Proof.Machine

/-- The invariants of the store (10_state.md R34), with the canonical form of memory and the range
of `next_id` (R33). -/
structure Store.Inv (st : Store) : Prop where
  /-- Memory is in canonical form, and every segment is shorter than 2^32 (20_memory.md R62). -/
  canonical : Memory.wf st.seg
  /-- R34 (c): 0 is always mapped. -/
  programMapped : (st.segment 0#32).isSome
  /-- R34 (b): 0 is never in the pool. -/
  programNotFree : 0#32 ∉ st.pool
  /-- R34 (a) and (d): below `next_id`, an identifier is mapped or in the pool, never both. -/
  mappedOrFree : ∀ id < st.nextId, 1 ≤ id →
    ((Assoc.find id st.seg).isSome ↔ id ∉ st.pool.map BitVec.toNat)
  /-- R34 (d): no identifier from `next_id` up is mapped. -/
  mappedBelow : ∀ e ∈ st.seg, e.1 < st.nextId
  /-- R34 (d): no identifier from `next_id` up is in the pool. -/
  freeBelow : ∀ id ∈ st.pool, id.toNat < st.nextId
  /-- R34 (e): the pool holds no identifier twice. -/
  poolNodup : st.pool.Nodup
  /-- R33: identifiers are minted from 1. -/
  nextPos : 1 ≤ st.nextId
  /-- R33: `next_id` is at most 2^32. -/
  nextLe : st.nextId ≤ 2 ^ 32

/-- The invariant of the Machine: that of its store, and no contract violation has been raised
(60_exceptions.md R266). -/
structure State.Inv (s : State) : Prop where
  store : s.store.Inv
  noContractViolation : ∀ info, s.status ≠ .faulted .contractViolation info

/-- No fatal fault has ended the run. -/
def State.Safe (s : State) : Prop := ∀ cause info, s.status ≠ .faulted cause info

/-- The run has ended (41_engine_cycle.md R159). -/
def State.Ended (s : State) : Prop := s.status ≠ .running

/-- The instruction waits for the environment (41_engine_cycle.md R158). -/
def Waits (i : Instr) (s : State) : Prop :=
  match i with
  | .inp _ _ _ => s.input.next = none
  | _ => False

/-- The run has not ended, and the next step is an IN that waits for the environment, so no step is
enabled until there is an answer (41_engine_cycle.md R158, 93_implementation_defined.md U7). -/
def State.AwaitsInput (s : State) : Prop :=
  s.status = .running ∧
    ∃ inst i, s.fetch = .ok inst ∧ decode inst = .ok i ∧ Waits i s

/-- The condition under which an instruction raises a cause, read from the table of
60_exceptions.md R251. -/
def Raises (i : Instr) (s : State) (cause : Cause) : Prop :=
  match i, cause with
  | .sload _ b _, .unmappedSegment id => id = s.reg b ∧ s.store.segment id = none
  | .sstore a _ _, .unmappedSegment id => id = s.reg a ∧ s.store.segment id = none
  | .unmap _ _ c, .unmappedSegment id => id = s.reg c ∧ id ≠ 0#32 ∧ s.store.segment id = none
  | .loadp _ b _, .unmappedSegment id => id = s.reg b ∧ id ≠ 0#32 ∧ s.store.segment id = none
  | .sload _ b c, .offsetOutOfBounds id off =>
    id = s.reg b ∧ off = s.reg c ∧ ∃ g, s.store.segment id = some g ∧ g.len ≤ off.toNat
  | .sstore a b _, .offsetOutOfBounds id off =>
    id = s.reg a ∧ off = s.reg b ∧ ∃ g, s.store.segment id = some g ∧ g.len ≤ off.toNat
  | .div _ _ c, .divideByZero => s.reg c = 0#32
  | .out _ _ c, .outputOutOfRange v => v = s.reg c ∧ 255 < v.toNat
  | .unmap _ _ c, .unmapProgramSegment => s.reg c = 0#32
  | .map _ _ c, .resourceExhausted n =>
    n = s.reg c ∧
      (s.store.capacityAllows s.config n.toNat = false ∨
        s.store.pool = [] ∧ 2 ^ 32 ≤ s.store.nextId)
  | _, _ => False

/-- The register an instruction writes, if it writes one: the last column of the table of
10_state.md R22. -/
def destination : Instr → Option RegIdx
  | .cmov a _ _ | .sload a _ _ | .add a _ _ | .mul a _ _ | .div a _ _ | .nand a _ _ => some a
  | .map _ b _ => some b
  | .inp _ _ c => some c
  | .loadv a _ => some a
  | .sstore _ _ _ | .halt _ _ _ | .unmap _ _ _ | .out _ _ _ | .loadp _ _ _ | .unrec14 _
  | .unrec15 _ => none

/-- The registers an instruction reads: the middle column of the table of 10_state.md R22. -/
def sources : Instr → List RegIdx
  | .cmov _ b c | .sload _ b c | .add _ b c | .mul _ b c | .div _ b c | .nand _ b c => [b, c]
  | .sstore a b c => [a, b, c]
  | .map _ _ c | .unmap _ _ c | .out _ _ c => [c]
  | .loadp _ b c => [b, c]
  | .halt _ _ _ | .inp _ _ _ | .loadv _ _ | .unrec14 _ | .unrec15 _ => []

/-- The operand fields of an instruction are those of a word: the slices of
30_encoding.md R95. -/
def FieldsOf (w : Word) : Instr → Prop
  | .cmov a b c | .sload a b c | .sstore a b c | .add a b c | .mul a b c | .div a b c
  | .nand a b c | .halt a b c | .map a b c | .unmap a b c | .out a b c | .inp a b c
  | .loadp a b c =>
    a = w.extractLsb' 6 3 ∧ b = w.extractLsb' 3 3 ∧ c = w.extractLsb' 0 3
  | .loadv a imm => a = w.extractLsb' 25 3 ∧ imm = w.extractLsb' 0 25
  | .unrec14 raw | .unrec15 raw => raw = w

/-- Every register is unchanged. -/
def SameRegisters (s t : State) : Prop := ∀ r, t.reg r = s.reg r

/-- Every register but one is unchanged. -/
def SameRegistersBut (r : RegIdx) (s t : State) : Prop := ∀ j, j ≠ r → t.reg j = s.reg j

/-- Every word of memory, every segment's length, which identifiers are mapped, the pool and the
counter are unchanged. -/
structure SameStore (s t : State) : Prop where
  word : ∀ id off, t.store.word id off = s.store.word id off
  length : ∀ id, (t.store.segment id).map Segment.len = (s.store.segment id).map Segment.len
  pool : t.store.pool = s.store.pool
  nextId : t.store.nextId = s.store.nextId

/-- Everything outside the registers, the pc and the store is unchanged. -/
structure SameOutside (s t : State) : Prop where
  status : t.status = s.status
  out : t.out = s.out
  input : t.input = s.input
  config : t.config = s.config

/-- Nothing changes but register `r`: the frame of an instruction that writes one register. The pc
is as the step's increment left it (10_state.md R24). -/
structure OnlyRegister (r : RegIdx) (s t : State) : Prop where
  registers : SameRegistersBut r s t
  pc : t.pc = s.pc
  memory : SameStore s t
  outside : SameOutside s t

/-- Nothing changes but the store: the frame of an instruction that writes only memory. -/
structure OnlyStore (s t : State) : Prop where
  registers : SameRegisters s t
  pc : t.pc = s.pc
  outside : SameOutside s t

/-- Nothing changes but the status: the effect of HALT and of a fault. -/
structure OnlyStatus (s t : State) : Prop where
  registers : SameRegisters s t
  pc : t.pc = s.pc
  memory : SameStore s t
  out : t.out = s.out
  input : t.input = s.input
  config : t.config = s.config

end Sys2Proof.Machine
end

