-- ==== Sys2Proof/Certificates/Slice0/Obligations.lean ====
section
/-! DEFINITION. The statements about the Machine that the provers are asked to prove. `Raises`,
`OnlyRegister`, `OnlyStore`, `OnlyStatus`, `destination`, `sources` and `FieldsOf` are in
Sys2Proof/Safety.lean. `s.raise cause` is the state after `raise cause` in the dispatch. Where a
docstring names a decision `D<n>`, it is the spec's own choice (92_eei_decisions.md). The causes of
faults, their record and what a fault leaves are decisions D6 to D9 (notes/assumptions/18.md), in
every statement that names them. -/

open Sys2Proof Sys2Proof.Machine

/-! ## Encoding and decoding -/

/-- One word per row of the opcode table, written out from 30_encoding.md and taken from the worked
examples where there is one. The opcode numbers are the spec's decision D1. -/
def Obligations.DecodeReadsSpecWords : Prop :=
  decode 0x00000053#32 = .ok (.cmov 1 2 3) ∧ decode 0x1000000A#32 = .ok (.sload 0 1 2) ∧
  decode 0x2000009C#32 = .ok (.sstore 2 3 4) ∧ decode 0x3FFFFE0A#32 = .ok (.add 0 1 2) ∧
  decode 0x400000E5#32 = .ok (.mul 3 4 5) ∧ decode 0x5000000A#32 = .ok (.div 0 1 2) ∧
  decode 0x600001F6#32 = .ok (.nand 7 6 6) ∧ decode 0x7FFFFFFF#32 = .ok (.halt 7 7 7) ∧
  decode 0x800001CA#32 = .ok (.map 7 1 2) ∧ decode 0x90000002#32 = .ok (.unmap 0 0 2) ∧
  decode 0xA0000001#32 = .ok (.out 0 0 1) ∧ decode 0xB0000003#32 = .ok (.inp 0 0 3) ∧
  decode 0xC000000A#32 = .ok (.loadp 0 1 2) ∧ decode 0xD20000FF#32 = .ok (.loadv 1 255) ∧
  decode 0xE0000000#32 = .ok (.unrec14 0xE0000000#32) ∧
  decode 0xFFFFFFFF#32 = .ok (.unrec15 0xFFFFFFFF#32)

/-- 30_encoding.md R95: every word decodes, to the instruction of its opcode field, with the
operands of its format, or with the raw word. Which operation has which number is decision D1. -/
def Obligations.EveryWordDecodesByItsFields : Prop :=
  ∀ w : Word, ∃ i : Instr, decode w = .ok i ∧ i.WellFormed ∧
    i.opcode = (w.extractLsb' 28 4).toNat ∧ FieldsOf w i

/-- 30_encoding.md R105, for every instruction: decoding after encoding returns it. -/
def Obligations.DecodeAfterEncodeIsIdentity : Prop :=
  ∀ i : Instr, i.WellFormed → decode (encode i) = .ok i

/-- 30_encoding.md R98, R105: encoding after decoding returns the word, with bits [27:9] cleared
where the opcode is a three-register one. Decision D3. -/
def Obligations.EncodeAfterDecodeClearsUnusedBits : Prop :=
  ∀ (w : Word) (i : Instr), decode w = .ok i →
    encode i = if (w.extractLsb' 28 4).toNat ≤ 12 then w &&& 0xF00001FF#32 else w

/-- 30_encoding.md R98: words of one three-register opcode that agree in bits [8:0] decode alike.
Decision D3. -/
def Obligations.UnusedBitsAreNotDecoded : Prop :=
  ∀ w v : Word, (w.extractLsb' 28 4).toNat ≤ 12 → w.extractLsb' 28 4 = v.extractLsb' 28 4 →
    w.extractLsb' 0 9 = v.extractLsb' 0 9 → decode w = decode v

/-- 30_encoding.md R104: the encodings are what the codec's `set_unsigned` builds from zero, and an
immediate of 2^25 or more does not fit. -/
def Obligations.EncodingIsCodecInsertion : Prop :=
  (∀ (op : Nat) (a b c : RegIdx) (i : Instr), threeRegister op a b c = some i →
    codecEncodeThree op (a.setWidth 64) (b.setWidth 64) (c.setWidth 64) =
      .ok ((encode i).setWidth 64)) ∧
  (∀ (a : RegIdx) (imm : Imm),
    codecEncodeLoadValue (a.setWidth 64) (imm.setWidth 64) =
      .ok ((encode (.loadv a imm)).setWidth 64)) ∧
  (∀ (a : RegIdx) (imm : CWord), 2 ^ 25 ≤ imm.toNat →
    codecEncodeLoadValue (a.setWidth 64) imm = .doesNotFit)

/-! ## The bit-field codec -/

/-- 40_bitfield_codec.md R122: a call answers `ContractViolation` exactly where its precondition
fails. That all six functions check is decision D13. -/
def Obligations.CodecViolationExactlyOnBadField : Prop :=
  ∀ (word value : CWord) (v : Int) (width lsb : Nat),
    (fitsUnsigned value width = .contractViolation ↔ ¬ (1 ≤ width ∧ width ≤ 64)) ∧
    (fitsSigned v width = .contractViolation ↔ ¬ (1 ≤ width ∧ width ≤ 64)) ∧
    (getUnsigned word width lsb = .contractViolation ↔
      ¬ (1 ≤ width ∧ width ≤ 64 ∧ width + lsb ≤ 64)) ∧
    (getSigned word width lsb = .contractViolation ↔
      ¬ (1 ≤ width ∧ width ≤ 64 ∧ width + lsb ≤ 64)) ∧
    (setUnsigned word width lsb value = .contractViolation ↔
      ¬ (1 ≤ width ∧ width ≤ 64 ∧ width + lsb ≤ 64)) ∧
    (setSigned word width lsb v = .contractViolation ↔
      ¬ (1 ≤ width ∧ width ≤ 64 ∧ width + lsb ≤ 64))

/-- 40_bitfield_codec.md R124, R125: the two range tests. -/
def Obligations.FitsTestsTheRange : Prop :=
  ∀ (value : CWord) (v : Int) (width : Nat),
    fitsUnsigned value width =
      (if 1 ≤ width ∧ width ≤ 64 then .ok (decide (value.toNat < 2 ^ width))
       else .contractViolation) ∧
    fitsSigned v width =
      (if 1 ≤ width ∧ width ≤ 64 then
        .ok (decide (-(2 : Int) ^ (width - 1) ≤ v ∧ v < (2 : Int) ^ (width - 1)))
       else .contractViolation)

/-- 40_bitfield_codec.md R126: the field `word[lsb + width - 1 : lsb]`, as a number and bit by
bit. -/
def Obligations.GetUnsignedIsTheField : Prop :=
  ∀ (word : CWord) (width lsb : Nat),
    if 1 ≤ width ∧ width ≤ 64 ∧ width + lsb ≤ 64 then
      ∃ f : CWord, getUnsigned word width lsb = .ok f ∧
        f.toNat = word.toNat / 2 ^ lsb % 2 ^ width ∧
        ∀ i, f.getLsbD i = (decide (i < width) && word.getLsbD (lsb + i))
    else getUnsigned word width lsb = .contractViolation

/-- 40_bitfield_codec.md R127: the result is in the signed range, agrees with the field modulo
2^width, and is negative exactly where the field's most significant bit is 1. -/
def Obligations.GetSignedSignExtends : Prop :=
  ∀ (word : CWord) (width lsb : Nat),
    if 1 ≤ width ∧ width ≤ 64 ∧ width + lsb ≤ 64 then
      ∃ v : Int, getSigned word width lsb = .ok v ∧
        -(2 : Int) ^ (width - 1) ≤ v ∧ v < (2 : Int) ^ (width - 1) ∧
        v % (2 : Int) ^ width = ((word.toNat / 2 ^ lsb % 2 ^ width : Nat) : Int) ∧
        (v < 0 ↔ word.getLsbD (lsb + width - 1) = true)
    else getSigned word width lsb = .contractViolation

/-- 40_bitfield_codec.md R128: the field's bits are the value's, all other bits are the word's; a
value that does not fit answers `DoesNotFit`; the precondition comes first. -/
def Obligations.SetUnsignedReplacesTheField : Prop :=
  ∀ (word value : CWord) (width lsb : Nat),
    if 1 ≤ width ∧ width ≤ 64 ∧ width + lsb ≤ 64 then
      if value.toNat < 2 ^ width then
        ∃ w : CWord, setUnsigned word width lsb value = .ok w ∧
          ∀ i, i < 64 → w.getLsbD i =
            if lsb ≤ i ∧ i < lsb + width then value.getLsbD (i - lsb) else word.getLsbD i
      else setUnsigned word width lsb value = .doesNotFit
    else setUnsigned word width lsb value = .contractViolation

/-- 40_bitfield_codec.md R129: as R128, with the two's complement of a signed value. -/
def Obligations.SetSignedStoresTwosComplement : Prop :=
  ∀ (word : CWord) (value : Int) (width lsb : Nat),
    if 1 ≤ width ∧ width ≤ 64 ∧ width + lsb ≤ 64 then
      if -(2 : Int) ^ (width - 1) ≤ value ∧ value < (2 : Int) ^ (width - 1) then
        ∃ w : CWord, setSigned word width lsb value = .ok w ∧
          ∀ i, i < 64 → w.getLsbD i =
            if lsb ≤ i ∧ i < lsb + width then (BitVec.ofInt 64 value).getLsbD (i - lsb)
            else word.getLsbD i
      else setSigned word width lsb value = .doesNotFit
    else setSigned word width lsb value = .contractViolation

/-- 40_bitfield_codec.md R130: the source's three testable properties. -/
def Obligations.CodecRoundTrips : Prop :=
  (∀ (word value : CWord) (width lsb : Nat), 1 ≤ width → width + lsb ≤ 64 →
    value.toNat < 2 ^ width →
    ∃ w : CWord, setUnsigned word width lsb value = .ok w ∧ getUnsigned w width lsb = .ok value) ∧
  (∀ (word : CWord) (value : Int) (width lsb : Nat), 1 ≤ width → width + lsb ≤ 64 →
    -(2 : Int) ^ (width - 1) ≤ value → value < (2 : Int) ^ (width - 1) →
    ∃ w : CWord, setSigned word width lsb value = .ok w ∧ getSigned w width lsb = .ok value) ∧
  (∀ (word value : CWord) (width lsb : Nat), 1 ≤ width → width + lsb ≤ 64 →
    fitsUnsigned value width = .ok false → setUnsigned word width lsb value = .doesNotFit)

/-- 40_bitfield_codec.md R131, law 1: setting one field leaves every field that does not overlap it
as it was, read unsigned or signed. -/
def Obligations.CodecSetLeavesOtherFields : Prop :=
  ∀ (word w : CWord) (w1 l1 w2 l2 : Nat), 1 ≤ w1 → w1 + l1 ≤ 64 → 1 ≤ w2 → w2 + l2 ≤ 64 →
    (l1 + w1 ≤ l2 ∨ l2 + w2 ≤ l1) →
    ((∃ v, setUnsigned word w1 l1 v = .ok w) ∨ ∃ v, setSigned word w1 l1 v = .ok w) →
    getUnsigned w w2 l2 = getUnsigned word w2 l2 ∧ getSigned w w2 l2 = getSigned word w2 l2

/-- 40_bitfield_codec.md R131, laws 2 to 7, for a valid field. -/
def Obligations.CodecGetAndSetAgree : Prop :=
  ∀ (word : CWord) (width lsb : Nat), 1 ≤ width → width + lsb ≤ 64 →
    (∃ (u : CWord) (v : Int), getUnsigned word width lsb = .ok u ∧
      getSigned word width lsb = .ok v ∧ v % (2 : Int) ^ width = (u.toNat : Int) ∧
      fitsUnsigned u width = .ok true ∧ fitsSigned v width = .ok true ∧
      setUnsigned word width lsb u = .ok word ∧ setSigned word width lsb v = .ok word) ∧
    (∀ v : Int, fitsSigned v width = .ok true →
      setSigned word width lsb v =
        setUnsigned word width lsb (BitVec.ofInt 64 (v % (2 : Int) ^ width))) ∧
    (∀ v : Int, fitsSigned v width = .ok false → setSigned word width lsb v = .doesNotFit) ∧
    (∀ (v1 v2 w : CWord), setUnsigned word width lsb v1 = .ok w →
      setUnsigned w width lsb v2 = setUnsigned word width lsb v2)

/-- 40_bitfield_codec.md R133: the two maps of two's complement, by the formulas the rule gives, are
inverse to each other. -/
def Obligations.TwosComplementMapsAreInverse : Prop :=
  ∀ width : Nat, 1 ≤ width →
    (∀ v : Int, -(2 : Int) ^ (width - 1) ≤ v → v < (2 : Int) ^ (width - 1) →
      (toTwos width v : Int) = (if 0 ≤ v then v else v + (2 : Int) ^ width) ∧
      toTwos width v < 2 ^ width ∧ ofTwos width (toTwos width v) = v) ∧
    (∀ f : Nat, f < 2 ^ width →
      ofTwos width f =
        (if f.testBit (width - 1) then (f : Int) - (2 : Int) ^ width else (f : Int)) ∧
      -(2 : Int) ^ (width - 1) ≤ ofTwos width f ∧ ofTwos width f < (2 : Int) ^ (width - 1) ∧
      toTwos width (ofTwos width f) = f)

/-- 40_bitfield_codec.md R132 (decision D14): the codec as a block answers with the function that
`fn` selects; 6 and 7 answer `ContractViolation`; the outcome codes are 0, 1 and 2. -/
def Obligations.CodecBlockSelectsFunction : Prop :=
  ∀ (word value : CWord) (width lsb : BitVec 7),
    codecRespond ⟨0, word, width, lsb, value⟩ =
      (fitsUnsigned value width.toNat).mapOk (fun b => if b then 1#64 else 0#64) ∧
    codecRespond ⟨1, word, width, lsb, value⟩ =
      (fitsSigned value.toInt width.toNat).mapOk (fun b => if b then 1#64 else 0#64) ∧
    codecRespond ⟨2, word, width, lsb, value⟩ = getUnsigned word width.toNat lsb.toNat ∧
    codecRespond ⟨3, word, width, lsb, value⟩ =
      (getSigned word width.toNat lsb.toNat).mapOk (fun v => BitVec.ofInt 64 v) ∧
    codecRespond ⟨4, word, width, lsb, value⟩ = setUnsigned word width.toNat lsb.toNat value ∧
    codecRespond ⟨5, word, width, lsb, value⟩ =
      setSigned word width.toNat lsb.toNat value.toInt ∧
    codecRespond ⟨6, word, width, lsb, value⟩ = .contractViolation ∧
    codecRespond ⟨7, word, width, lsb, value⟩ = .contractViolation ∧
    (CodecOutcome.ok word).code = 0 ∧ (CodecOutcome.doesNotFit : CodecOutcome CWord).code = 1 ∧
    (CodecOutcome.contractViolation : CodecOutcome CWord).code = 2

/-! ## Registers, reset, the loader, the end of a run -/

/-- 10_state.md R20, R21: eight words, all 0 at first; every register, `x[0]` too, reads back what
was last written to it, and a write leaves the others alone. -/
def Obligations.RegistersReadBackWhatWasWritten : Prop :=
  (∀ (cfg : Config) (program : List Word) (q : InputStream) (i : RegIdx),
    (State.boot cfg program q).reg i = 0#32) ∧
  ∀ (s : State) (i j : RegIdx) (v : Word),
    (s.setReg i v).reg j = if j = i then v else s.reg j

/-- 10_state.md R39, 70_reset_and_hazards.md R280: what reset leaves. `pc = 0` is decision D2. The
input stream and the capacity are the environment's and the implementation's (the model's own
fields, notes/assumptions/2.md and 4.md). -/
def Obligations.ResetSeedsSegmentZero : Prop :=
  ∀ (cfg : Config) (program : List Word) (q : InputStream),
    (∀ i, (State.boot cfg program q).reg i = 0#32) ∧
    (State.boot cfg program q).pc = 0#32 ∧
    (State.boot cfg program q).status = .running ∧
    (State.boot cfg program q).store.words 0#32 = some program ∧
    (∀ id, id ≠ 0#32 → (State.boot cfg program q).store.segment id = none) ∧
    (State.boot cfg program q).store.pool = [] ∧
    (State.boot cfg program q).store.nextId = 1 ∧
    (State.boot cfg program q).out = [] ∧
    (State.boot cfg program q).input = q ∧ (State.boot cfg program q).config = cfg

/-- 20_memory.md R52, 45_io_and_host.md R232: an image is cut into big-endian words, and one with a
trailing partial word gives none. -/
def Obligations.ImageIsBigEndianWords : Prop :=
  ∀ bytes : List Byte,
    if bytes.length % 4 = 0 then
      ∃ ws : List Word, imageWords bytes = some ws ∧ 4 * ws.length = bytes.length ∧
        ∀ k, k < ws.length →
          (ws.getD k 0).toNat =
            (bytes.getD (4 * k) 0).toNat * 2 ^ 24 + (bytes.getD (4 * k + 1) 0).toNat * 2 ^ 16 +
              (bytes.getD (4 * k + 2) 0).toNat * 2 ^ 8 + (bytes.getD (4 * k + 3) 0).toNat
    else imageWords bytes = none

/-- 45_io_and_host.md R235, 41_engine_cycle.md R155: the host tells a clean end from an abnormal
one, and a step answers a next state exactly where the run has not ended and no IN waits (R158).
`Faulted` as a status is decision D6, no step after the end is decision D20, no step while an IN
waits is decision D16; that `step` answers a fault of the host's interface where there is no step
is the model's (notes/assumptions/5.md and 6.md). -/
def Obligations.RunEndsCleanOrAbnormal : Prop :=
  ∀ s : State,
    (s.runEnd = some .clean ↔ s.status = .halted) ∧
    (s.runEnd = some .abnormal ↔ ∃ cause info, s.status = .faulted cause info) ∧
    (s.runEnd = none ↔ s.status = .running) ∧
    ((∃ t, step s = .next t) ↔ s.runEnd = none ∧ ¬ s.AwaitsInput)

/-! ## Data operations -/

/-- 42_data_ops.md R170: CMOV. -/
def Obligations.CmovMovesOnNonZero : Prop :=
  ∀ (a b c : RegIdx) (s : State), ∃ t, exec (.cmov a b c) s = .next t ∧
    t.reg a = (if s.reg c ≠ 0#32 then s.reg b else s.reg a) ∧ OnlyRegister a s t

/-- 42_data_ops.md R171: ADD. -/
def Obligations.AddWritesSumModuloWord : Prop :=
  ∀ (a b c : RegIdx) (s : State), ∃ t, exec (.add a b c) s = .next t ∧
    (t.reg a).toNat = ((s.reg b).toNat + (s.reg c).toNat) % 2 ^ 32 ∧ OnlyRegister a s t

/-- 42_data_ops.md R172: MUL. -/
def Obligations.MulWritesProductModuloWord : Prop :=
  ∀ (a b c : RegIdx) (s : State), ∃ t, exec (.mul a b c) s = .next t ∧
    (t.reg a).toNat = (s.reg b).toNat * (s.reg c).toNat % 2 ^ 32 ∧ OnlyRegister a s t

/-- 42_data_ops.md R173: DIV writes the unsigned floor quotient; a zero divisor is the fault
`DivideByZero`, and nothing is written. The cause and the precise fault are decisions D7 and D8. -/
def Obligations.DivWritesQuotientOrFaults : Prop :=
  ∀ (a b c : RegIdx) (s : State),
    if s.reg c = 0#32 then exec (.div a b c) s = .next (s.raise .divideByZero)
    else ∃ t, exec (.div a b c) s = .next t ∧
      (t.reg a).toNat = (s.reg b).toNat / (s.reg c).toNat ∧ OnlyRegister a s t

/-- 42_data_ops.md R174: NAND, bit by bit. -/
def Obligations.NandComplementsConjunction : Prop :=
  ∀ (a b c : RegIdx) (s : State), ∃ t, exec (.nand a b c) s = .next t ∧
    (∀ i, i < 32 → (t.reg a).getLsbD i = !((s.reg b).getLsbD i && (s.reg c).getLsbD i)) ∧
    OnlyRegister a s t

/-- 42_data_ops.md R175: LOADV writes the immediate, zero-extended. -/
def Obligations.LoadvWritesZeroExtendedImmediate : Prop :=
  ∀ (a : RegIdx) (imm : Imm) (s : State), ∃ t, exec (.loadv a imm) s = .next t ∧
    (t.reg a).toNat = imm.toNat ∧ OnlyRegister a s t

/-! ## Segment operations -/

/-- 43_segment_ops.md R190, 20_memory.md R55: SLOAD writes the word at `(x[b], x[c])`, and faults
where the identifier is unmapped or the offset is not below the segment's length. Decisions D7 and
D8. -/
def Obligations.SloadReadsWordOrFaults : Prop :=
  ∀ (a b c : RegIdx) (s : State),
    match s.store.segment (s.reg b) with
    | none => exec (.sload a b c) s = .next (s.raise (.unmappedSegment (s.reg b)))
    | some g =>
      if (s.reg c).toNat < g.len then
        ∃ t, exec (.sload a b c) s = .next t ∧
          s.store.word (s.reg b) (s.reg c) = some (t.reg a) ∧ OnlyRegister a s t
      else
        exec (.sload a b c) s = .next (s.raise (.offsetOutOfBounds (s.reg b) (s.reg c)))

/-- 43_segment_ops.md R191, 20_memory.md R56: SSTORE writes `x[c]` at the address
`storeAddress s a b`; every other word, every length, the pool and the counter are as before; it
faults where the identifier is unmapped or the offset is not below the segment's length. Decisions
D7 and D8. -/
def Obligations.SstoreWritesOneWordOrFaults : Prop :=
  ∀ (a b c : RegIdx) (s : State) (id : SegId) (off : Word), storeAddress s a b = (id, off) →
    match s.store.segment id with
    | none => exec (.sstore a b c) s = .next (s.raise (.unmappedSegment id))
    | some g =>
      if off.toNat < g.len then
        ∃ t, exec (.sstore a b c) s = .next t ∧
          t.store.word id off = some (s.reg c) ∧
          (∀ id' off', (id', off') ≠ (id, off) →
            t.store.word id' off' = s.store.word id' off') ∧
          (∀ id', (t.store.segment id').map Segment.len =
            (s.store.segment id').map Segment.len) ∧
          t.store.pool = s.store.pool ∧ t.store.nextId = s.store.nextId ∧ OnlyStore s t
      else exec (.sstore a b c) s = .next (s.raise (.offsetOutOfBounds id off))

/-- 43_segment_ops.md R192, 20_memory.md R57, R63: MAP takes the top of the pool, else the next
fresh identifier; the new segment is `x[c]` zero words; every other segment is as before; without
capacity or identifiers it faults. The order of reuse is decision D5, the fault decision D9. -/
def Obligations.MapAllocatesZeroSegmentOrFaults : Prop :=
  ∀ (a b c : RegIdx) (s : State),
    if s.store.capacityAllows s.config (s.reg c).toNat = false ∨
        s.store.pool = [] ∧ 2 ^ 32 ≤ s.store.nextId then
      exec (.map a b c) s = .next (s.raise (.resourceExhausted (s.reg c)))
    else
      ∃ t, exec (.map a b c) s = .next t ∧
        t.reg b = s.store.pool.headD (BitVec.ofNat 32 s.store.nextId) ∧
        t.store.words (t.reg b) = some (List.replicate (s.reg c).toNat 0#32) ∧
        (∀ id, id ≠ t.reg b → t.store.segment id = s.store.segment id) ∧
        t.store.pool = s.store.pool.tail ∧
        t.store.nextId = (if s.store.pool = [] then s.store.nextId + 1 else s.store.nextId) ∧
        SameRegistersBut b s t ∧ t.pc = s.pc ∧ SameOutside s t

/-- 43_segment_ops.md R193, 20_memory.md R58: UNMAP removes the identifier and puts it on top of the
pool; every other segment is as before; it faults on 0 and on an unmapped identifier. Decisions D5,
D7 and D8. -/
def Obligations.UnmapFreesIdentifierOrFaults : Prop :=
  ∀ (a b c : RegIdx) (s : State),
    if s.reg c = 0#32 then exec (.unmap a b c) s = .next (s.raise .unmapProgramSegment)
    else if s.store.segment (s.reg c) = none then
      exec (.unmap a b c) s = .next (s.raise (.unmappedSegment (s.reg c)))
    else
      ∃ t, exec (.unmap a b c) s = .next t ∧ t.store.segment (s.reg c) = none ∧
        (∀ id, id ≠ s.reg c → t.store.segment id = s.store.segment id) ∧
        t.store.pool = s.reg c :: s.store.pool ∧ t.store.nextId = s.store.nextId ∧
        OnlyStore s t

/-- 20_memory.md R70: an allocation never returns 0 or a mapped identifier, in every store that
meets the invariants of 10_state.md R34. The spec infers it from the rules of Allocate and Free. -/
def Obligations.AllocateNeverReturnsLiveIdentifier : Prop :=
  ∀ (st st' : Store) (cfg : Config) (n : Word) (id : SegId), st.Inv →
    st.allocate cfg n = .ok (id, st') → id ≠ 0#32 ∧ st.segment id = none

/-- 43_segment_ops.md R192, RUM section 8: a MAP straight after an UNMAP reuses the identifier and
finds only zero words, with unbounded capacity. Decision D5. -/
def Obligations.MapAfterUnmapReusesIdentifier : Prop :=
  ∀ (a b c a' b' c' : RegIdx) (s : State), s.config.capacityWords = none → s.reg c ≠ 0#32 →
    s.store.segment (s.reg c) ≠ none →
    ∃ t u, exec (.unmap a b c) s = .next t ∧ exec (.map a' b' c') t = .next u ∧
      u.reg b' = s.reg c ∧
      u.store.words (s.reg c) = some (List.replicate (s.reg c').toNat 0#32) ∧
      u.store.pool = s.store.pool

/-- Two segments in canonical form that are the same sequence of words are the same data (the
model's representation, notes/assumptions/1.md). -/
def Obligations.CanonicalSegmentsAreDetermined : Prop :=
  ∀ g h : Segment, g.wf → h.wf → g.words = h.words → g = h

/-! ## Control operations -/

/-- 44_control_ops.md R210: HALT makes the status `Halted` and changes nothing else, whatever its
fields hold; no step follows. -/
def Obligations.HaltStopsTheEngine : Prop :=
  ∀ (a b c : RegIdx) (s : State), ∃ t, exec (.halt a b c) s = .next t ∧ t.status = .halted ∧
    OnlyStatus s t ∧ ∀ u, step t ≠ .next u

/-- 44_control_ops.md R211, 20_memory.md R59: LOADP jumps to `x[c]`; with `x[b] = 0` nothing is
copied, else segment 0 becomes the words of segment `x[b]`, every other segment is as before; it
faults where `x[b]` is neither 0 nor mapped. Decisions D7 and D8. -/
def Obligations.LoadpReplacesProgramAndJumps : Prop :=
  ∀ (a b c : RegIdx) (s : State),
    if s.reg b = 0#32 then
      ∃ t, exec (.loadp a b c) s = .next t ∧ t.pc = s.reg c ∧ SameRegisters s t ∧
        SameStore s t ∧ SameOutside s t
    else if s.store.segment (s.reg b) = none then
      exec (.loadp a b c) s = .next (s.raise (.unmappedSegment (s.reg b)))
    else
      ∃ t, exec (.loadp a b c) s = .next t ∧ t.pc = s.reg c ∧
        t.store.words 0#32 = s.store.words (s.reg b) ∧
        (∀ id, id ≠ 0#32 → t.store.segment id = s.store.segment id) ∧
        t.store.pool = s.store.pool ∧ t.store.nextId = s.store.nextId ∧
        SameRegisters s t ∧ SameOutside s t

/-- 44_control_ops.md R212: a word with opcode 14 or 15 changes nothing beyond the step's increment
of the pc. Decision D4. -/
def Obligations.UnrecognizedOpcodesAreInert : Prop :=
  ∀ (raw : Word) (s : State),
    exec (.unrec14 raw) s = .next s ∧ exec (.unrec15 raw) s = .next s ∧
    ∀ (inst : Word), s.status = .running → s.fetch = .ok inst →
      14 ≤ (inst.extractLsb' 28 4).toNat → step s = .next (s.setPc (s.pc + 1#32))

/-! ## Input and output -/

/-- 45_io_and_host.md R230, R236: OUT appends the byte `x[c]`, and faults where the value is above
255. That the stream accepts every byte is decision D17; the cause and the precise fault are D7 and
D8. -/
def Obligations.OutEmitsByteOrFaults : Prop :=
  ∀ (a b c : RegIdx) (s : State),
    if 255 < (s.reg c).toNat then
      exec (.out a b c) s = .next (s.raise (.outputOutOfRange (s.reg c)))
    else
      ∃ t v, exec (.out a b c) s = .next t ∧ t.out = s.out ++ [v] ∧
        v.toNat = (s.reg c).toNat ∧ SameRegisters s t ∧ t.pc = s.pc ∧ SameStore s t ∧
        t.status = s.status ∧ t.input = s.input ∧ t.config = s.config

/-- 45_io_and_host.md R231: IN writes the byte, zero-extended, or the sentinel at the end of the
stream, into register C, and takes at most one answer. The stream is the model's own field
(notes/assumptions/4.md). -/
def Obligations.InWritesByteOrSentinel : Prop :=
  ∀ (a b c : RegIdx) (s : State) (r : InputAnswer) (q : InputStream),
    s.input.next = some (r, q) →
    ∃ t, exec (.inp a b c) s = .next t ∧
      (r = .endOfStream → t.reg c = 0xFFFFFFFF#32) ∧
      (∀ v, r = .byte v → (t.reg c).toNat = v.toNat) ∧ t.input = q ∧
      SameRegistersBut c s t ∧ t.pc = s.pc ∧ SameStore s t ∧ t.status = s.status ∧
      t.out = s.out ∧ t.config = s.config

/-- 45_io_and_host.md R237: a stream of bytes fixed before the run answers them in order, and then
`EndOfStream` at every request. The fixed stream is decision D16. -/
def Obligations.InputBytesComeInOrderThenEnd : Prop :=
  (∀ (v : Byte) (rest : List Byte),
    (InputStream.ofBytes (v :: rest)).next = some (.byte v, InputStream.ofBytes rest)) ∧
  (InputStream.ofBytes []).next = some (.endOfStream, InputStream.ofBytes [])

/-- 41_engine_cycle.md R158: a step whose IN has no answer is not enabled, so it answers no next
state; the run has not ended; and an answer, or the end of the stream, enables the step, which then
completes. Decision D16. That the outcome is the fault `awaitingInput` of the host's interface is
the model's (notes/assumptions/5.md). -/
def Obligations.InWaitsForTheEnvironment : Prop :=
  ∀ (a b c : RegIdx) (s : State) (inst : Word), s.status = .running → s.fetch = .ok inst →
    decode inst = .ok (.inp a b c) → s.input.next = none →
    step s = .fault .awaitingInput ∧ s.runEnd = none ∧
    (∀ r : InputAnswer, ∃ t, step (s.answerInput r) = .next t ∧ t.reg c = r.value ∧
      SameRegistersBut c s t ∧ SameStore s t ∧ t.pc = s.pc + 1#32 ∧ t.input = s.input) ∧
    ∃ t, step s.endInput = .next t ∧ t.reg c = 0xFFFFFFFF#32 ∧ SameRegistersBut c s t ∧
      SameStore s t ∧ t.pc = s.pc + 1#32

/-! ## Faults -/

/-- 60_exceptions.md R252, R253, R255: raising a fault in the dispatch writes the status and nothing
else; the record holds the index and the word of the instruction. Decisions D6, D7, D8. -/
def Obligations.RaiseWritesOnlyTheStatus : Prop :=
  ∀ (s : State) (cause : Cause),
    OnlyStatus s (s.raise cause) ∧
    (s.raise cause).status =
      .faulted cause { index := s.pc - 1#32, inst := s.store.word 0#32 (s.pc - 1#32) } ∧
    (s.raise cause).runEnd = some .abnormal

/-- 60_exceptions.md R251, R254: which instruction raises which cause, and exactly when. The causes
are decision D7. -/
def Obligations.FaultsAreThoseOfTheTable : Prop :=
  ∀ (i : Instr) (s : State) (cause : Cause), s.status = .running →
    (exec i s = .next (s.raise cause) ↔ Raises i s cause)

/-- 41_engine_cycle.md R151: a fetch past the end of segment 0 faults, and the pc is not
incremented. Decisions D7 and D8. -/
def Obligations.FetchPastEndFaults : Prop :=
  ∀ (s : State) (g : Segment), s.status = .running → s.store.segment 0#32 = some g →
    g.len ≤ s.pc.toNat →
    step s = .next (s.raiseAtFetch (.offsetOutOfBounds 0#32 s.pc)) ∧
    OnlyStatus s (s.raiseAtFetch (.offsetOutOfBounds 0#32 s.pc)) ∧
    (s.raiseAtFetch (.offsetOutOfBounds 0#32 s.pc)).status =
      .faulted (.offsetOutOfBounds 0#32 s.pc) { index := s.pc, inst := none }

/-- 60_exceptions.md R255, R253: a step that ends in a fault has written nothing but the pc's
increment and the status; the record names the faulting instruction. Decisions D7 and D8. -/
def Obligations.FaultingStepHasNoEffect : Prop :=
  ∀ (s t : State) (cause : Cause) (info : FaultInfo), step s = .next t →
    t.status = .faulted cause info →
    SameRegisters s t ∧ SameStore s t ∧ t.out = s.out ∧ t.input = s.input ∧
    info.index = s.pc ∧
    ((s.fetch = .error cause ∧ info.inst = none ∧ t.pc = s.pc) ∨
      ∃ inst, s.fetch = .ok inst ∧ info.inst = some inst ∧ t.pc = s.pc + 1#32)

/-! ## The step -/

/-- 41_engine_cycle.md R150: a step runs the decoded instruction, with the pc already incremented. -/
def Obligations.StepExecutesDecodedInstruction : Prop :=
  ∀ (s : State) (inst : Word) (i : Instr), s.status = .running →
    s.store.word 0#32 s.pc = some inst → decode inst = .ok i →
    step s = exec i (s.setPc (s.pc + 1#32))

/-- 41_engine_cycle.md R157, R158: from `Running`, a step that no IN holds up answers a next state,
in one of the three ways; it is held up exactly where the fetched instruction is an IN that has no
answer (decision D16), and then it is not enabled, which the model writes as the fault
`awaitingInput` of the host's interface (notes/assumptions/5.md). No word is refused. -/
def Obligations.StepFromRunningCompletesOrWaits : Prop :=
  ∀ s : State, s.status = .running →
    (s.AwaitsInput ∧ step s = .fault .awaitingInput) ∨
      (¬ s.AwaitsInput ∧ ∃ t, step s = .next t ∧
        (t.status = .running ∨ t.status = .halted ∨ ∃ cause info, t.status = .faulted cause info))

/-- 30_encoding.md R92: the register fields an instruction does not use have no influence. -/
def Obligations.UnusedFieldsHaveNoInfluence : Prop :=
  ∀ (a b c a' b' c' : RegIdx) (raw raw' : Word) (s : State),
    exec (.halt a b c) s = exec (.halt a' b' c') s ∧
    exec (.map a b c) s = exec (.map a' b c) s ∧
    exec (.loadp a b c) s = exec (.loadp a' b c) s ∧
    exec (.unmap a b c) s = exec (.unmap a' b' c) s ∧
    exec (.out a b c) s = exec (.out a' b' c) s ∧
    exec (.inp a b c) s = exec (.inp a' b' c) s ∧
    exec (.unrec14 raw) s = exec (.unrec14 raw') s ∧
    exec (.unrec15 raw) s = exec (.unrec15 raw') s

/-- 10_state.md R22, last column: no instruction writes a register but its destination. -/
def Obligations.OnlyTheDestinationIsWritten : Prop :=
  ∀ (i : Instr) (s t : State) (r : RegIdx), exec i s = .next t → destination i ≠ some r →
    t.reg r = s.reg r

/-- 10_state.md R22, middle column: a register that an instruction does not read has no influence
on what it does; only that register itself can differ afterwards. -/
def Obligations.UnreadRegistersHaveNoInfluence : Prop :=
  ∀ (i : Instr) (s t : State) (r : RegIdx) (v : Word), r ∉ sources i → exec i s = .next t →
    ∃ t', exec i (s.setReg r v) = .next t' ∧ (∀ j, j ≠ r → t'.reg j = t.reg j) ∧
      t'.pc = t.pc ∧ t'.status = t.status ∧ t'.store = t.store ∧ t'.out = t.out ∧
      t'.input = t.input ∧ t'.config = t.config

/-- 10_state.md R24, 44_control_ops.md R213: after an instruction that completes, the pc is the next
index, unless the instruction is LOADP. After a fault of the dispatch this is decision D8. -/
def Obligations.OnlyLoadpMovesThePc : Prop :=
  ∀ (s t : State) (inst : Word) (i : Instr), s.fetch = .ok inst → decode inst = .ok i →
    step s = .next t → (∀ a b c, i ≠ .loadp a b c) → t.pc = s.pc + 1#32

/-- 10_state.md R26: only HALT makes the status `Halted`. -/
def Obligations.OnlyHaltHalts : Prop :=
  ∀ s t : State, step s = .next t → t.status = .halted →
    ∃ inst a b c, s.fetch = .ok inst ∧ decode inst = .ok (.halt a b c)

/-- 20_memory.md R69: an instruction other than SSTORE, MAP, UNMAP and LOADP leaves the store as it
is. -/
def Obligations.OnlyStoreInstructionsTouchTheStore : Prop :=
  ∀ (i : Instr) (s t : State), exec i s = .next t →
    (∀ a b c, i ≠ .sstore a b c ∧ i ≠ .map a b c ∧ i ≠ .unmap a b c ∧ i ≠ .loadp a b c) →
    t.store = s.store

/-- 10_state.md R36, 45_io_and_host.md R230: the output only grows, by one byte, and only by an
OUT. -/
def Obligations.OutputGrowsOnlyByOut : Prop :=
  ∀ s t : State, step s = .next t →
    t.out = s.out ∨
      ∃ inst a b c v, s.fetch = .ok inst ∧ decode inst = .ok (.out a b c) ∧
        t.out = s.out ++ [v] ∧ v.toNat = (s.reg c).toNat

/-- 45_io_and_host.md R231, 41_engine_cycle.md R157: input is consumed only by an IN, one answer at
a time; and no step changes the configuration (the model's own field,
notes/assumptions/2.md). -/
def Obligations.InputIsConsumedOnlyByIn : Prop :=
  ∀ s t : State, step s = .next t →
    t.config = s.config ∧
    (t.input = s.input ∨
      ∃ inst a b c r, s.fetch = .ok inst ∧ decode inst = .ok (.inp a b c) ∧
        s.input.next = some (r, t.input))

/-- 20_memory.md R62: a segment that stays mapped keeps its length, except segment 0, whose length
LOADP makes that of the segment it copies. Decision D19. -/
def Obligations.SegmentLengthsAreFixed : Prop :=
  ∀ (s t : State) (id : SegId) (g g' : Segment), s.Inv → step s = .next t →
    s.store.segment id = some g → t.store.segment id = some g' →
    g'.len = g.len ∨
      (id = 0#32 ∧ ∃ inst a b c h, s.fetch = .ok inst ∧ decode inst = .ok (.loadp a b c) ∧
        s.store.segment (s.reg b) = some h ∧ g'.len = h.len)

/-- 20_memory.md R67, 70_reset_and_hazards.md R284: a word stored at the next index of segment 0 is
the word the next step fetches. -/
def Obligations.StoreIntoProgramIsFetchedNext : Prop :=
  ∀ (a b c : RegIdx) (s : State) (g : Segment), s.reg a = 0#32 → s.reg b = s.pc →
    s.store.segment 0#32 = some g → s.pc.toNat < g.len →
    ∃ t, exec (.sstore a b c) s = .next t ∧ t.fetch = .ok (s.reg c)

/-- 10_state.md R25: in a state that meets the invariant, a fetch that succeeds leaves a pc that
does not wrap when incremented. It rests on decision D10 and on an inference of the spec's. -/
def Obligations.PcIncrementNeverWraps : Prop :=
  ∀ (s : State) (inst : Word), s.Inv → s.fetch = .ok inst →
    (s.pc + 1#32).toNat = s.pc.toNat + 1

/-! ## Invariants -/

/-- 10_state.md R34 after reset: the invariant holds of every program that the spec allows
(decision D10). -/
def Obligations.ResetMeetsTheInvariant : Prop :=
  State.reset.Inv ∧
  ∀ (cfg : Config) (program : List Word) (q : InputStream), program.length < 2 ^ 32 →
    (State.boot cfg program q).Inv

/-- 10_state.md R34, 60_exceptions.md R266: every step keeps the invariants of the store and the
canonical form of memory, and raises no contract violation. -/
def Obligations.EveryStepKeepsTheInvariant : Prop :=
  ∀ s t : State, s.Inv → step s = .next t → t.Inv
end

