-- ==== Sys2Proof/Laws/Assoc.lean ====
section
/-! SUPPORT. The laws of lists by key: reading after a write, and that every operation keeps the
canonical form. -/

namespace Sys2Proof.Machine

variable {α : Type}

@[simp] theorem Assoc.find_nil (k : Nat) : Assoc.find k ([] : List (Nat × α)) = none := rfl

theorem Assoc.find_cons (k j : Nat) (v : α) (m : List (Nat × α)) :
    Assoc.find k ((j, v) :: m) = if j = k then some v else Assoc.find k m := rfl

/-- Reading after a write: the key written gives the value, every other key is as before. -/
theorem Assoc.find_put (k j : Nat) (v : α) (m : List (Nat × α)) :
    Assoc.find j (Assoc.put k v m) = if j = k then some v else Assoc.find j m := by
  induction m with
  | nil => simp [Assoc.put, Assoc.find_cons, eq_comm]
  | cons e m ih =>
    obtain ⟨i, w⟩ := e
    unfold Assoc.put
    split
    · rw [Assoc.find_cons]; simp only [eq_comm (a := k)]
    · split
      · next hk => subst hk; simp only [Assoc.find_cons, eq_comm (a := j)]; split <;> rfl
      · simp only [Assoc.find_cons, ih]; split <;> split <;> simp_all

@[simp] theorem Assoc.find_put_same (k : Nat) (v : α) (m : List (Nat × α)) :
    Assoc.find k (Assoc.put k v m) = some v := by simp [Assoc.find_put]

/-- Reading after an erasure: the key is not listed, every other key is as before. -/
theorem Assoc.find_erase (k j : Nat) (m : List (Nat × α)) :
    Assoc.find j (Assoc.erase k m) = if j = k then none else Assoc.find j m := by
  induction m with
  | nil => simp [Assoc.erase]
  | cons e m ih =>
    obtain ⟨i, w⟩ := e
    simp only [Assoc.erase] at ih ⊢
    by_cases hi : i = k
    · subst hi; simp only [bne_self_eq_false, Bool.false_eq_true, not_false_eq_true,
        List.filter_cons_of_neg, ih, Assoc.find_cons, eq_comm (a := i)]; split <;> rfl
    · simp only [bne_iff_ne, ne_eq, hi, not_false_eq_true, List.filter_cons_of_pos,
        Assoc.find_cons, ih]; split <;> split <;> simp_all

theorem Assoc.mem_of_find {k : Nat} {v : α} {m : List (Nat × α)}
    (h : Assoc.find k m = some v) : (k, v) ∈ m := by
  induction m with
  | nil => simp at h
  | cons e m ih =>
    obtain ⟨i, w⟩ := e
    rw [Assoc.find_cons] at h
    split at h
    · cases h; subst_vars; simp
    · exact List.mem_cons_of_mem _ (ih h)

theorem Assoc.mem_put {k : Nat} {v : α} {m : List (Nat × α)} {e : Nat × α}
    (h : e ∈ Assoc.put k v m) : e = (k, v) ∨ e ∈ m := by
  induction m with
  | nil => simpa [Assoc.put] using h
  | cons x m ih =>
    obtain ⟨i, w⟩ := x
    unfold Assoc.put at h
    split at h
    · simpa using h
    · split at h
      · rcases List.mem_cons.1 h with h | h
        · exact .inl h
        · exact .inr (List.mem_cons_of_mem _ h)
      · rcases List.mem_cons.1 h with h | h
        · exact .inr (h ▸ List.mem_cons_self)
        · exact (ih h).imp id (List.mem_cons_of_mem _)

theorem Assoc.mem_erase {k : Nat} {m : List (Nat × α)} {e : Nat × α} :
    e ∈ Assoc.erase k m ↔ e ∈ m ∧ e.1 ≠ k := by
  simp [Assoc.erase]

/-- A write keeps the canonical form. -/
theorem Assoc.rising_put (k : Nat) (v : α) {m : List (Nat × α)} (h : Assoc.Rising m) :
    Assoc.Rising (Assoc.put k v m) := by
  induction m with
  | nil => simp [Assoc.put, Assoc.Rising]
  | cons e m ih =>
    obtain ⟨i, w⟩ := e
    obtain ⟨hhead, htail⟩ := List.pairwise_cons.1 h
    unfold Assoc.put
    split
    · next hk =>
      refine List.pairwise_cons.2 ⟨fun x hx => ?_, h⟩
      rcases List.mem_cons.1 hx with rfl | hx
      · exact hk
      · exact Nat.lt_trans hk (hhead x hx)
    · split
      · next hk => subst hk; exact List.pairwise_cons.2 ⟨hhead, htail⟩
      · refine List.pairwise_cons.2 ⟨fun x hx => ?_, ih htail⟩
        rcases Assoc.mem_put hx with rfl | hx
        · simp only; omega
        · exact hhead x hx

/-- An erasure keeps the canonical form. -/
theorem Assoc.rising_erase (k : Nat) {m : List (Nat × α)} (h : Assoc.Rising m) :
    Assoc.Rising (Assoc.erase k m) := List.Pairwise.filter _ h

/-- In canonical form, a listed pair is what its key reads as. -/
theorem Assoc.find_of_mem {m : List (Nat × α)} (h : Assoc.Rising m) {e : Nat × α} (he : e ∈ m) :
    Assoc.find e.1 m = some e.2 := by
  induction m with
  | nil => simp at he
  | cons x m ih =>
    obtain ⟨i, w⟩ := x
    obtain ⟨hhead, htail⟩ := List.pairwise_cons.1 h
    rcases List.mem_cons.1 he with rfl | he
    · simp [Assoc.find_cons]
    · have := hhead e he
      rw [Assoc.find_cons, if_neg (by simp only at this; omega), ih htail he]

end Sys2Proof.Machine
end

