-- ==== Sys2Proof/Laws/Codec.lean ====
section
/-! SUPPORT. The laws of the codec's two building blocks, reading a field and replacing one, bit by
bit; and what the decoder's fields are (40_bitfield_codec.md R126, R128, R134). -/

namespace Sys2Proof.Machine

theorem fieldNat_lt (word : CWord) (width lsb : Nat) : fieldNat word width lsb < 2 ^ width :=
  Nat.mod_lt _ (Nat.two_pow_pos width)

/-- The bits of a field. -/
theorem fieldNat_testBit (word : CWord) (width lsb i : Nat) :
    (fieldNat word width lsb).testBit i = (decide (i < width) && word.getLsbD (lsb + i)) := by
  simp [fieldNat, Nat.testBit_mod_two_pow, Nat.testBit_div_two_pow, BitVec.getLsbD, Nat.add_comm]

/-- The bits of a field's mask. -/
theorem fieldMask_getLsbD (width lsb i : Nat) :
    (fieldMask width lsb).getLsbD i = decide (i < 64 ∧ lsb ≤ i ∧ i < lsb + width) := by
  have : (2 ^ width - 1) * 2 ^ lsb = (2 ^ width - 1) <<< lsb := by rw [Nat.shiftLeft_eq]
  simp only [fieldMask, BitVec.getLsbD_ofNat, this, Nat.testBit_shiftLeft, Nat.testBit_two_pow_sub_one]
  by_cases h1 : i < 64 <;> by_cases h2 : lsb ≤ i <;> simp [h1, h2]
  omega

/-- The bits of a word with a field replaced: the field's bits inside, the old bits outside. -/
theorem replaceField_getLsbD (word : CWord) {width lsb field : Nat} (hf : field < 2 ^ width)
    (i : Nat) :
    (replaceField word width lsb field).getLsbD i =
      (decide (i < 64) &&
        if lsb ≤ i ∧ i < lsb + width then field.testBit (i - lsb) else word.getLsbD i) := by
  have hshift : field * 2 ^ lsb = field <<< lsb := by rw [Nat.shiftLeft_eq]
  simp only [replaceField, BitVec.getLsbD_or, BitVec.getLsbD_and, BitVec.getLsbD_not,
    fieldMask_getLsbD, BitVec.getLsbD_ofNat, hshift, Nat.testBit_shiftLeft]
  by_cases h1 : i < 64
  · by_cases h2 : lsb ≤ i
    · by_cases h3 : i < lsb + width
      · simp [h1, h2, h3]
      · have : field.testBit (i - lsb) = false :=
          Nat.testBit_lt_two_pow (Nat.lt_of_lt_of_le hf (Nat.pow_le_pow_right (by omega) (by omega)))
        simp [h1, h2, h3, this]
    · simp [h1, h2]
  · simp [h1]

/-- The field reads back as what was put into it (40_bitfield_codec.md R130). -/
theorem fieldNat_replaceField (word : CWord) {width lsb field : Nat} (hv : ValidField width lsb)
    (hf : field < 2 ^ width) : fieldNat (replaceField word width lsb field) width lsb = field := by
  refine Nat.eq_of_testBit_eq fun i => ?_
  rw [fieldNat_testBit, replaceField_getLsbD word hf]
  by_cases h : i < width
  · have h1 : lsb + i < 64 := by have := hv.2; omega
    simp [h, h1]
  · have : field.testBit i = false :=
      Nat.testBit_lt_two_pow (Nat.lt_of_lt_of_le hf (Nat.pow_le_pow_right (by omega) (by omega)))
    simp [h, this]

theorem getUnsigned_ok {width lsb : Nat} (word : CWord) (hv : ValidField width lsb) :
    getUnsigned word width lsb = .ok (BitVec.ofNat 64 (fieldNat word width lsb)) := if_pos hv

theorem fieldNat_lt_64 {width lsb : Nat} (word : CWord) (hv : ValidField width lsb) :
    fieldNat word width lsb < 2 ^ 64 :=
  Nat.lt_of_lt_of_le (fieldNat_lt _ _ _) (Nat.pow_le_pow_right (by omega) (by have := hv.1.2; omega))

end Sys2Proof.Machine

namespace Sys2Proof

/-- A valid field of an instruction word is the slice of that word (40_bitfield_codec.md R134), so
the decoder meets no contract violation (60_exceptions.md R266). -/
theorem decodeField_eq (inst : Word) {width lsb : Nat} (hv : Machine.ValidField width lsb) :
    decodeField inst width lsb = .ok ((inst.extractLsb' lsb width).setWidth 64) := by
  simp only [decodeField, Machine.getUnsigned_ok _ hv, Except.ok.injEq]
  apply BitVec.eq_of_getLsbD_eq
  intro i hi
  rw [BitVec.getLsbD_ofNat, Machine.fieldNat_testBit]
  by_cases h : i < width
  · have : lsb + i < 64 := by have := hv.2; omega
    simp [hi, h, this]
  · simp [h]

theorem decodeReg_eq (inst : Word) {lsb : Nat} (h : lsb ≤ 61) :
    decodeReg inst lsb = .ok (inst.extractLsb' lsb 3) := by
  rw [decodeReg, decodeField_eq inst (by omega)]
  simp [Except.map]

/-- The decoder by slices of the word (30_encoding.md R95). -/
theorem decode_eq (inst : Word) :
    decode inst = .ok
      (match threeRegister (inst.extractLsb' 28 4).toNat (inst.extractLsb' 6 3)
          (inst.extractLsb' 3 3) (inst.extractLsb' 0 3) with
      | some i => i
      | none =>
        if (inst.extractLsb' 28 4).toNat = 13 then
          .loadv (inst.extractLsb' 25 3) (inst.extractLsb' 0 25)
        else if (inst.extractLsb' 28 4).toNat = 14 then .unrec14 inst
        else .unrec15 inst) := by
  have hop : ((inst.extractLsb' 28 4).setWidth 64).toNat = (inst.extractLsb' 28 4).toNat := by
    simp only [BitVec.toNat_setWidth]; omega
  simp only [decode, decodeField_eq inst (width := 4) (lsb := 28) (by decide),
    decodeField_eq inst (width := 25) (lsb := 0) (by decide),
    decodeReg_eq inst (lsb := 6) (by decide), decodeReg_eq inst (lsb := 3) (by decide),
    decodeReg_eq inst (lsb := 0) (by decide), decodeReg_eq inst (lsb := 25) (by decide),
    bind, Except.bind, pure, Except.pure, hop]
  cases threeRegister (inst.extractLsb' 28 4).toNat (inst.extractLsb' 6 3)
    (inst.extractLsb' 3 3) (inst.extractLsb' 0 3) with
  | some i => rfl
  | none => simp only; split <;> [simp; (split <;> rfl)]

end Sys2Proof
end

