-- ==== Sys2Proof/Laws/PerInstr.lean ====
section
/-! SUPPORT. Statements made per instruction, one lemma per constructor of `Instr`. -/

namespace Sys2Proof

/-- The opcode field of a three-register word. -/
theorem encodeThree_opcode (op : Nat) (h : op < 16) (a b c : RegIdx) :
    ((encodeThree op a b c).extractLsb' 28 4).toNat = op := by
  have ha := a.isLt; have hb := b.isLt; have hc := c.isLt
  rw [encodeThree, BitVec.extractLsb'_toNat, BitVec.toNat_ofNat, Nat.shiftRight_eq_div_pow]
  omega

end Sys2Proof

namespace Sys2Proof.Laws

/-- The opcode field of an encoded instruction is the instruction's opcode number
(30_encoding.md R96, R102). -/
def OpcodeField.Statement (i : Instr) : Prop :=
  i.WellFormed → ((encode i).extractLsb' 28 4).toNat = i.opcode

theorem OpcodeField.cmov (a b c : RegIdx) : OpcodeField.Statement (.cmov a b c) :=
  fun _ => encodeThree_opcode 0 (by decide) a b c

theorem OpcodeField.sload (a b c : RegIdx) : OpcodeField.Statement (.sload a b c) :=
  fun _ => encodeThree_opcode 1 (by decide) a b c

theorem OpcodeField.sstore (a b c : RegIdx) : OpcodeField.Statement (.sstore a b c) :=
  fun _ => encodeThree_opcode 2 (by decide) a b c

theorem OpcodeField.add (a b c : RegIdx) : OpcodeField.Statement (.add a b c) :=
  fun _ => encodeThree_opcode 3 (by decide) a b c

theorem OpcodeField.mul (a b c : RegIdx) : OpcodeField.Statement (.mul a b c) :=
  fun _ => encodeThree_opcode 4 (by decide) a b c

theorem OpcodeField.div (a b c : RegIdx) : OpcodeField.Statement (.div a b c) :=
  fun _ => encodeThree_opcode 5 (by decide) a b c

theorem OpcodeField.nand (a b c : RegIdx) : OpcodeField.Statement (.nand a b c) :=
  fun _ => encodeThree_opcode 6 (by decide) a b c

theorem OpcodeField.halt (a b c : RegIdx) : OpcodeField.Statement (.halt a b c) :=
  fun _ => encodeThree_opcode 7 (by decide) a b c

theorem OpcodeField.map (a b c : RegIdx) : OpcodeField.Statement (.map a b c) :=
  fun _ => encodeThree_opcode 8 (by decide) a b c

theorem OpcodeField.unmap (a b c : RegIdx) : OpcodeField.Statement (.unmap a b c) :=
  fun _ => encodeThree_opcode 9 (by decide) a b c

theorem OpcodeField.out (a b c : RegIdx) : OpcodeField.Statement (.out a b c) :=
  fun _ => encodeThree_opcode 10 (by decide) a b c

theorem OpcodeField.inp (a b c : RegIdx) : OpcodeField.Statement (.inp a b c) :=
  fun _ => encodeThree_opcode 11 (by decide) a b c

theorem OpcodeField.loadp (a b c : RegIdx) : OpcodeField.Statement (.loadp a b c) :=
  fun _ => encodeThree_opcode 12 (by decide) a b c

theorem OpcodeField.loadv (a : RegIdx) (imm : Imm) : OpcodeField.Statement (.loadv a imm) := by
  intro _
  have ha := a.isLt; have himm := imm.isLt
  rw [encode, Instr.opcode, BitVec.extractLsb'_toNat, BitVec.toNat_ofNat,
    Nat.shiftRight_eq_div_pow]
  omega

theorem OpcodeField.unrec14 (raw : Word) : OpcodeField.Statement (.unrec14 raw) := by
  intro h
  simp only [Instr.WellFormed, Instr.wellFormed, beq_iff_eq] at h
  simp only [encode, Instr.opcode, h]; decide

theorem OpcodeField.unrec15 (raw : Word) : OpcodeField.Statement (.unrec15 raw) := by
  intro h
  simp only [Instr.WellFormed, Instr.wellFormed, beq_iff_eq] at h
  simp only [encode, Instr.opcode, h]; decide

end Sys2Proof.Laws
end

