-- ==== Sys2Proof/Laws/SegmentStore.lean ====
section
/-! SUPPORT. The laws of segments and of the store: reading after a write, what each store
operation can answer, and that each keeps the canonical form and the invariants of
10_state.md R34. -/

namespace Sys2Proof.Machine

/-! ## Segments -/

@[simp] theorem Segment.zeros_len (n : Nat) : (Segment.zeros n).len = n := rfl

@[simp] theorem Segment.zeros_get (n off : Nat) : (Segment.zeros n).get off = 0#32 := rfl

@[simp] theorem Segment.set_len (g : Segment) (off : Nat) (v : Word) :
    (g.set off v).len = g.len := by unfold Segment.set; split <;> rfl

/-- Reading a segment after a write of one word (20_memory.md R56). -/
theorem Segment.get_set (g : Segment) (off j : Nat) (v : Word) :
    (g.set off v).get j = if j = off then v else g.get j := by
  unfold Segment.set Segment.get
  split
  · next hv => subst hv; simp only [Assoc.find_erase]; split <;> simp
  · simp only [Assoc.find_put]; split <;> simp

theorem Segment.zeros_wf {n : Nat} (h : n < 2 ^ 32) : (Segment.zeros n).wf :=
  ⟨h, List.Pairwise.nil, by simp [Segment.zeros]⟩

/-- A write below the length keeps the canonical form. -/
theorem Segment.set_wf {g : Segment} (h : g.wf) {off : Nat} (v : Word) (hoff : off < g.len) :
    (g.set off v).wf := by
  obtain ⟨hlen, hrise, hcells⟩ := h
  unfold Segment.set
  split
  · exact ⟨hlen, Assoc.rising_erase _ hrise, fun c hc => hcells c (Assoc.mem_erase.1 hc).1⟩
  · next hv =>
    refine ⟨hlen, Assoc.rising_put _ _ hrise, fun c hc => ?_⟩
    rcases Assoc.mem_put hc with rfl | hc
    · exact ⟨hoff, hv⟩
    · exact hcells c hc

theorem cellsFrom_mem {k : Nat} {ws : List Word} {c : Nat × Word} (h : c ∈ cellsFrom k ws) :
    k ≤ c.1 ∧ c.1 < k + ws.length ∧ c.2 ≠ 0#32 := by
  induction ws generalizing k with
  | nil => simp [cellsFrom] at h
  | cons w ws ih =>
    unfold cellsFrom at h
    split at h
    · have := ih h; simp only [List.length_cons]; exact ⟨by omega, by omega, this.2.2⟩
    · next hw =>
      rcases List.mem_cons.1 h with rfl | h
      · simp [hw]
      · have := ih h; simp only [List.length_cons]; exact ⟨by omega, by omega, this.2.2⟩

theorem cellsFrom_rising (k : Nat) (ws : List Word) : Assoc.Rising (cellsFrom k ws) := by
  induction ws generalizing k with
  | nil => exact List.Pairwise.nil
  | cons w ws ih =>
    unfold cellsFrom
    split
    · exact ih _
    · exact List.pairwise_cons.2 ⟨fun x hx => (cellsFrom_mem hx).1, ih _⟩

theorem cellsFrom_find (k i : Nat) (ws : List Word) :
    (Assoc.find (k + i) (cellsFrom k ws)).getD 0#32 = ws.getD i 0#32 := by
  induction ws generalizing k i with
  | nil => simp [cellsFrom]
  | cons w ws ih =>
    unfold cellsFrom
    cases i with
    | zero =>
      split
      · next hw =>
        have hnone : Assoc.find k (cellsFrom (k + 1) ws) = none := by
          cases hf : Assoc.find k (cellsFrom (k + 1) ws) with
          | none => rfl
          | some v => have := (cellsFrom_mem (Assoc.mem_of_find hf)).1; simp only at this; omega
        simp [hnone, hw]
      · simp [Assoc.find_cons]
    | succ i =>
      have hi : k + (i + 1) = k + 1 + i := by omega
      split
      · rw [hi, ih]; simp
      · rw [Assoc.find_cons, if_neg (by omega), hi, ih]; simp

/-- The segment of a sequence of words holds those words. -/
theorem Segment.ofWords_get (ws : List Word) (i : Nat) :
    (Segment.ofWords ws).get i = ws.getD i 0#32 := by
  have := cellsFrom_find 0 i ws
  simpa [Segment.get, Segment.ofWords] using this

theorem Segment.ofWords_wf {ws : List Word} (h : ws.length < 2 ^ 32) : (Segment.ofWords ws).wf :=
  ⟨h, cellsFrom_rising 0 ws, fun c hc => by
    have := cellsFrom_mem hc; simp only [Segment.ofWords]; exact ⟨by omega, this.2.2⟩⟩

@[simp] theorem Segment.words_length (g : Segment) : g.words.length = g.len := by
  simp [Segment.words]

theorem Segment.words_getElem (g : Segment) (i : Nat) (h : i < g.words.length) :
    g.words[i] = g.get i := by simp [Segment.words]

/-- Two segments with the same length and the same reads are the same sequence. -/
theorem Segment.words_ext {g : Segment} {ws : List Word} (hlen : g.len = ws.length)
    (h : ∀ i, i < g.len → g.get i = ws.getD i 0#32) : g.words = ws := by
  refine List.ext_getElem (by simp [hlen]) fun i h1 h2 => ?_
  rw [Segment.words_getElem, h i (by simpa using h1), List.getD_eq_getElem _ _ h2]

/-! ## The store's reads -/

theorem Store.segment_setSegment (st : Store) (id id' : SegId) (g : Segment) :
    (st.setSegment id g).segment id' = if id' = id then some g else st.segment id' := by
  simp only [Store.segment, Store.setSegment, Assoc.find_put, BitVec.toNat_inj]

@[simp] theorem Store.setSegment_pool (st : Store) (id : SegId) (g : Segment) :
    (st.setSegment id g).pool = st.pool := rfl

@[simp] theorem Store.setSegment_nextId (st : Store) (id : SegId) (g : Segment) :
    (st.setSegment id g).nextId = st.nextId := rfl

/-- What a read can answer (20_memory.md R55). -/
theorem Store.read_cases (st : Store) (id : SegId) (off : Word) :
    (∃ g, st.segment id = some g ∧ off.toNat < g.len ∧
        st.read id off = .ok (g.get off.toNat)) ∨
      (st.segment id = none ∧ st.read id off = .error (.unmappedSegment id)) ∨
      ∃ g, st.segment id = some g ∧ g.len ≤ off.toNat ∧
        st.read id off = .error (.offsetOutOfBounds id off) := by
  unfold Store.read
  cases st.segment id with
  | none => simp
  | some g =>
    by_cases h : off.toNat < g.len
    · exact .inl ⟨g, rfl, h, by simp [h]⟩
    · exact .inr (.inr ⟨g, rfl, by omega, by simp [h]⟩)

/-- A read answers a word exactly where the address is valid. -/
theorem Store.read_eq_ok {st : Store} {id : SegId} {off v : Word} :
    st.read id off = .ok v ↔ st.word id off = some v := by
  unfold Store.read Store.word
  cases st.segment id with
  | none => simp
  | some g => simp only; split <;> simp

/-- What a write can answer (20_memory.md R56). -/
theorem Store.write_cases (st : Store) (id : SegId) (off v : Word) :
    (∃ g, st.segment id = some g ∧ off.toNat < g.len ∧
        st.write id off v = .ok (st.setSegment id (g.set off.toNat v))) ∨
      (st.segment id = none ∧ st.write id off v = .error (.unmappedSegment id)) ∨
      ∃ g, st.segment id = some g ∧ g.len ≤ off.toNat ∧
        st.write id off v = .error (.offsetOutOfBounds id off) := by
  unfold Store.write
  cases st.segment id with
  | none => simp
  | some g =>
    by_cases h : off.toNat < g.len
    · exact .inl ⟨g, rfl, h, by simp [h]⟩
    · exact .inr (.inr ⟨g, rfl, by omega, by simp [h]⟩)

/-- What an allocation can answer (20_memory.md R57, R63). -/
theorem Store.allocate_cases (st : Store) (cfg : Config) (n : Word) :
    (∃ id rest, st.capacityAllows cfg n.toNat = true ∧ st.pool = id :: rest ∧
        st.allocate cfg n = .ok (id, { st with
          seg := Assoc.put id.toNat (Segment.zeros n.toNat) st.seg, pool := rest })) ∨
      (st.capacityAllows cfg n.toNat = true ∧ st.pool = [] ∧ st.nextId < 2 ^ 32 ∧
        st.allocate cfg n = .ok (BitVec.ofNat 32 st.nextId, { st with
          seg := Assoc.put st.nextId (Segment.zeros n.toNat) st.seg
          nextId := st.nextId + 1 })) ∨
      ((st.capacityAllows cfg n.toNat = false ∨ st.pool = [] ∧ 2 ^ 32 ≤ st.nextId) ∧
        st.allocate cfg n = .error (.resourceExhausted n)) := by
  unfold Store.allocate
  cases hcap : st.capacityAllows cfg n.toNat with
  | false => simp
  | true =>
    cases hp : st.pool with
    | cons id rest => exact .inl ⟨id, rest, rfl, rfl, by simp⟩
    | nil =>
      by_cases h : 2 ^ 32 ≤ st.nextId
      · exact .inr (.inr ⟨.inr ⟨rfl, h⟩, if_pos h⟩)
      · exact .inr (.inl ⟨rfl, rfl, by omega, if_neg h⟩)

/-- What a free can answer (20_memory.md R58). -/
theorem Store.free_cases (st : Store) (id : SegId) :
    (id ≠ 0#32 ∧ (st.segment id).isSome ∧
        st.free id = .ok { st with seg := Assoc.erase id.toNat st.seg, pool := id :: st.pool }) ∨
      (id = 0#32 ∧ st.free id = .error .unmapProgramSegment) ∨
      (id ≠ 0#32 ∧ st.segment id = none ∧ st.free id = .error (.unmappedSegment id)) := by
  unfold Store.free
  by_cases h : id = 0#32
  · simp [h]
  · cases hs : st.segment id <;> simp [h]

/-- What a replacement of the program can answer (20_memory.md R59). -/
theorem Store.replaceProgram_cases (st : Store) (id : SegId) :
    (∃ g, st.segment id = some g ∧ st.replaceProgram id = .ok (st.setSegment 0#32 g)) ∨
      (st.segment id = none ∧ st.replaceProgram id = .error (.unmappedSegment id)) := by
  unfold Store.replaceProgram
  cases st.segment id <;> simp

/-! ## The canonical form and the invariants -/

theorem Memory.wf_put {m : List (Nat × Segment)} (h : Memory.wf m) {k : Nat} {g : Segment}
    (hk : k < 2 ^ 32) (hg : g.wf) : Memory.wf (Assoc.put k g m) :=
  ⟨Assoc.rising_put _ _ h.1, fun e he => by
    rcases Assoc.mem_put he with rfl | he
    · exact ⟨hk, hg⟩
    · exact h.2 e he⟩

theorem Memory.wf_erase {m : List (Nat × Segment)} (h : Memory.wf m) (k : Nat) :
    Memory.wf (Assoc.erase k m) :=
  ⟨Assoc.rising_erase _ h.1, fun e he => h.2 e (Assoc.mem_erase.1 he).1⟩

theorem Memory.wf_find {m : List (Nat × Segment)} (h : Memory.wf m) {k : Nat} {g : Segment}
    (hf : Assoc.find k m = some g) : g.wf := (h.2 _ (Assoc.mem_of_find hf)).2

/-- The memory after reset is in canonical form. -/
theorem Memory.wf_reset : Memory.wf State.reset.store.seg := by decide

/-- A mapped identifier is below `next_id`. -/
theorem Store.Inv.lt_nextId {st : Store} (h : st.Inv) {k : Nat} {g : Segment}
    (hf : Assoc.find k st.seg = some g) : k < st.nextId := h.mappedBelow _ (Assoc.mem_of_find hf)

/-- Replacing a segment that is mapped keeps the invariants. -/
theorem Store.Inv.setSegment {st : Store} (h : st.Inv) {id : SegId} {g0 g : Segment}
    (hs : st.segment id = some g0) (hg : g.wf) : (st.setSegment id g).Inv where
  canonical := Memory.wf_put h.canonical id.isLt hg
  programMapped := by
    rw [Store.segment_setSegment]; split
    · rfl
    · exact h.programMapped
  programNotFree := h.programNotFree
  mappedOrFree := fun k hk h1 => by
    have := h.mappedOrFree k hk h1
    simp only [Store.setSegment, Assoc.find_put] at this ⊢
    rw [← this]
    split
    · next hkid => subst hkid; simp only [Store.segment] at hs; simp [hs]
    · rfl
  mappedBelow := fun e he => by
    rcases Assoc.mem_put he with rfl | he
    · exact h.lt_nextId hs
    · exact h.mappedBelow e he
  freeBelow := h.freeBelow
  poolNodup := h.poolNodup
  nextPos := h.nextPos
  nextLe := h.nextLe

/-- A write keeps the invariants. -/
theorem Store.Inv.write {st st' : Store} (h : st.Inv) {id : SegId} {off v : Word}
    (hw : st.write id off v = .ok st') : st'.Inv := by
  obtain ⟨g, hs, hoff, heq⟩ | ⟨-, heq⟩ | ⟨g, -, -, heq⟩ := st.write_cases id off v <;>
    rw [heq] at hw <;> cases hw
  exact h.setSegment hs (Segment.set_wf (Memory.wf_find h.canonical hs) v hoff)

/-- A replacement of the program keeps the invariants. -/
theorem Store.Inv.replaceProgram {st st' : Store} (h : st.Inv) {id : SegId}
    (hr : st.replaceProgram id = .ok st') : st'.Inv := by
  obtain ⟨g, hs, heq⟩ | ⟨-, heq⟩ := st.replaceProgram_cases id <;> rw [heq] at hr <;> cases hr
  obtain ⟨g0, h0⟩ := Option.isSome_iff_exists.1 h.programMapped
  exact h.setSegment h0 (Memory.wf_find h.canonical hs)

/-- An identifier in the pool is not mapped and is not 0. -/
theorem Store.Inv.pool_unmapped {st : Store} (h : st.Inv) {id : SegId} (hid : id ∈ st.pool) :
    id ≠ 0#32 ∧ st.segment id = none := by
  have h0 : id ≠ 0#32 := fun e => h.programNotFree (e ▸ hid)
  refine ⟨h0, Option.not_isSome_iff_eq_none.1 fun hs => ?_⟩
  have hpos : 1 ≤ id.toNat := by
    rcases Nat.eq_zero_or_pos id.toNat with hz | hp
    · exact absurd (BitVec.eq_of_toNat_eq (by simpa using hz)) h0
    · exact hp
  exact (h.mappedOrFree _ (h.freeBelow _ hid) hpos).1 hs (List.mem_map_of_mem hid)

/-- An allocation keeps the invariants. -/
theorem Store.Inv.allocate {st st' : Store} (h : st.Inv) {cfg : Config} {n : Word} {id : SegId}
    (ha : st.allocate cfg n = .ok (id, st')) : st'.Inv := by
  have hn : n.toNat < 2 ^ 32 := n.isLt
  obtain ⟨top, rest, -, hp, heq⟩ | ⟨-, hp, hlt, heq⟩ | ⟨-, heq⟩ := st.allocate_cases cfg n <;>
    rw [heq] at ha <;> cases ha
  · have hmem : id ∈ st.pool := by simp [hp]
    obtain ⟨hne, hun⟩ := h.pool_unmapped hmem
    have hnd := h.poolNodup; rw [hp] at hnd
    obtain ⟨hnotin, hnd'⟩ := List.nodup_cons.1 hnd
    refine ⟨Memory.wf_put h.canonical id.isLt (Segment.zeros_wf hn), ?_, ?_, ?_, ?_, ?_, hnd',
      h.nextPos, h.nextLe⟩
    · have := h.programMapped
      simp only [Store.segment, Assoc.find_put] at this ⊢
      split <;> simp_all
    · intro h0; exact h.programNotFree (hp ▸ List.mem_cons_of_mem _ h0)
    · intro k hk h1
      have := h.mappedOrFree k hk h1
      simp only [Assoc.find_put, hp, List.map_cons, List.mem_cons, not_or] at this ⊢
      split
      · next hkid =>
        subst hkid
        simp only [Option.isSome_some, true_iff, List.mem_map, not_exists, not_and]
        intro x hx hxe
        exact hnotin (BitVec.eq_of_toNat_eq hxe ▸ hx)
      · next hkid => rw [this]; simp [hkid]
    · intro e he
      rcases Assoc.mem_put he with rfl | he
      · exact h.freeBelow _ hmem
      · exact h.mappedBelow e he
    · intro x hx; exact h.freeBelow x (hp ▸ List.mem_cons_of_mem _ hx)
  · refine ⟨Memory.wf_put h.canonical hlt (Segment.zeros_wf hn), ?_, h.programNotFree, ?_, ?_, ?_,
      h.poolNodup, by simp, by simp only; omega⟩
    · have := h.programMapped
      simp only [Store.segment, Assoc.find_put] at this ⊢
      split <;> simp_all
    · intro k hk h1
      simp only [Assoc.find_put]
      split
      · simp [hp]
      · next hne => exact h.mappedOrFree k (by simp only at hk; omega) h1
    · intro e he
      rcases Assoc.mem_put he with rfl | he
      · simp
      · have := h.mappedBelow e he; simp only; omega
    · intro x hx; have := h.freeBelow x hx; simp only; omega

/-- A free keeps the invariants. -/
theorem Store.Inv.free {st st' : Store} (h : st.Inv) {id : SegId}
    (hf : st.free id = .ok st') : st'.Inv := by
  obtain ⟨hne, hs, heq⟩ | ⟨-, heq⟩ | ⟨-, -, heq⟩ := st.free_cases id <;>
    rw [heq] at hf <;> cases hf
  obtain ⟨g, hg⟩ := Option.isSome_iff_exists.1 hs
  have hlt := h.lt_nextId hg
  refine ⟨Memory.wf_erase h.canonical _, ?_, ?_, ?_, ?_, ?_, ?_, h.nextPos, h.nextLe⟩
  · have := h.programMapped
    simp only [Store.segment, Assoc.find_erase] at this ⊢
    rw [if_neg]
    · exact this
    · intro e; exact hne (BitVec.eq_of_toNat_eq e.symm)
  · intro hmem
    rcases List.mem_cons.1 hmem with e | hmem
    · exact hne e.symm
    · exact h.programNotFree hmem
  · intro k hk h1
    have := h.mappedOrFree k hk h1
    simp only [Assoc.find_erase, List.map_cons, List.mem_cons, not_or]
    split
    · next hkid => simp [hkid]
    · next hkid => rw [this]; simp [hkid]
  · intro e he; exact h.mappedBelow e (Assoc.mem_erase.1 he).1
  · intro x hx
    rcases List.mem_cons.1 hx with rfl | hx
    · exact hlt
    · exact h.freeBelow x hx
  · refine List.nodup_cons.2 ⟨fun hmem => ?_, h.poolNodup⟩
    have := (h.pool_unmapped hmem).2
    rw [this] at hs; exact absurd hs (by simp)

/-- Placing an instruction for the next fetch keeps the invariants, where its index is one that a
segment can hold. -/
theorem Store.Inv.withFetchWord {s : State} (h : s.store.Inv) (nbits w : Nat)
    (hpc : s.pc.toNat + 1 < 2 ^ 32) : (s.withFetchWord nbits w).store.Inv := by
  obtain ⟨g, hg⟩ := Option.isSome_iff_exists.1 h.programMapped
  obtain ⟨hlen, hrise, hcells⟩ := Memory.wf_find h.canonical hg
  have hlong : Segment.wf { g with len := max g.len (s.pc.toNat + 1) } :=
    ⟨by simp only; omega, hrise, fun c hc => ⟨by have := (hcells c hc).1; simp only; omega,
      (hcells c hc).2⟩⟩
  have := h.setSegment hg (Segment.set_wf hlong (BitVec.ofNat 32 (w % 2 ^ nbits))
    (off := s.pc.toNat) (by simp only; omega))
  simpa [State.withFetchWord, hg] using this

end Sys2Proof.Machine
end

