-- ==== Sys2Proof/Laws/State.lean ====
section
/-! SUPPORT. One lemma per field per update of the state, so that no later proof unfolds a record
update; and the laws of the register file. -/

namespace Sys2Proof.Machine

@[simp] theorem State.setReg_pc (s : State) (i : RegIdx) (v : Word) :
    (s.setReg i v).pc = s.pc := rfl
@[simp] theorem State.setReg_status (s : State) (i : RegIdx) (v : Word) :
    (s.setReg i v).status = s.status := rfl
@[simp] theorem State.setReg_store (s : State) (i : RegIdx) (v : Word) :
    (s.setReg i v).store = s.store := rfl
@[simp] theorem State.setReg_out (s : State) (i : RegIdx) (v : Word) :
    (s.setReg i v).out = s.out := rfl
@[simp] theorem State.setReg_input (s : State) (i : RegIdx) (v : Word) :
    (s.setReg i v).input = s.input := rfl
@[simp] theorem State.setReg_config (s : State) (i : RegIdx) (v : Word) :
    (s.setReg i v).config = s.config := rfl

@[simp] theorem State.setPc_pc (s : State) (t : Word) : (s.setPc t).pc = t := rfl
@[simp] theorem State.setPc_status (s : State) (t : Word) : (s.setPc t).status = s.status := rfl
@[simp] theorem State.setPc_store (s : State) (t : Word) : (s.setPc t).store = s.store := rfl
@[simp] theorem State.setPc_out (s : State) (t : Word) : (s.setPc t).out = s.out := rfl
@[simp] theorem State.setPc_input (s : State) (t : Word) : (s.setPc t).input = s.input := rfl
@[simp] theorem State.setPc_config (s : State) (t : Word) : (s.setPc t).config = s.config := rfl
@[simp] theorem State.setPc_reg (s : State) (t : Word) (r : RegIdx) :
    (s.setPc t).reg r = s.reg r := rfl

@[simp] theorem State.setStore_pc (s : State) (st : Store) : (s.setStore st).pc = s.pc := rfl
@[simp] theorem State.setStore_status (s : State) (st : Store) :
    (s.setStore st).status = s.status := rfl
@[simp] theorem State.setStore_store (s : State) (st : Store) : (s.setStore st).store = st := rfl
@[simp] theorem State.setStore_out (s : State) (st : Store) : (s.setStore st).out = s.out := rfl
@[simp] theorem State.setStore_input (s : State) (st : Store) :
    (s.setStore st).input = s.input := rfl
@[simp] theorem State.setStore_config (s : State) (st : Store) :
    (s.setStore st).config = s.config := rfl
@[simp] theorem State.setStore_reg (s : State) (st : Store) (r : RegIdx) :
    (s.setStore st).reg r = s.reg r := rfl

@[simp] theorem State.setInput_pc (s : State) (q : InputStream) : (s.setInput q).pc = s.pc := rfl
@[simp] theorem State.setInput_status (s : State) (q : InputStream) :
    (s.setInput q).status = s.status := rfl
@[simp] theorem State.setInput_store (s : State) (q : InputStream) :
    (s.setInput q).store = s.store := rfl
@[simp] theorem State.setInput_out (s : State) (q : InputStream) : (s.setInput q).out = s.out := rfl
@[simp] theorem State.setInput_input (s : State) (q : InputStream) : (s.setInput q).input = q := rfl
@[simp] theorem State.setInput_config (s : State) (q : InputStream) :
    (s.setInput q).config = s.config := rfl
@[simp] theorem State.setInput_reg (s : State) (q : InputStream) (r : RegIdx) :
    (s.setInput q).reg r = s.reg r := rfl

@[simp] theorem State.setStatus_pc (s : State) (r : RunStatus) : (s.setStatus r).pc = s.pc := rfl
@[simp] theorem State.setStatus_status (s : State) (r : RunStatus) :
    (s.setStatus r).status = r := rfl
@[simp] theorem State.setStatus_store (s : State) (r : RunStatus) :
    (s.setStatus r).store = s.store := rfl
@[simp] theorem State.setStatus_out (s : State) (r : RunStatus) : (s.setStatus r).out = s.out := rfl
@[simp] theorem State.setStatus_input (s : State) (r : RunStatus) :
    (s.setStatus r).input = s.input := rfl
@[simp] theorem State.setStatus_config (s : State) (r : RunStatus) :
    (s.setStatus r).config = s.config := rfl
@[simp] theorem State.setStatus_reg (s : State) (r : RunStatus) (j : RegIdx) :
    (s.setStatus r).reg j = s.reg j := rfl

@[simp] theorem State.advance_pc (s : State) : s.advance.pc = s.pc + 1#32 := rfl
@[simp] theorem State.advance_status (s : State) : s.advance.status = s.status := rfl
@[simp] theorem State.advance_store (s : State) : s.advance.store = s.store := rfl
@[simp] theorem State.advance_out (s : State) : s.advance.out = s.out := rfl
@[simp] theorem State.advance_input (s : State) : s.advance.input = s.input := rfl
@[simp] theorem State.advance_config (s : State) : s.advance.config = s.config := rfl
@[simp] theorem State.advance_reg (s : State) (r : RegIdx) :
    s.advance.reg r = s.reg r := rfl

@[simp] theorem State.emit_pc (s : State) (b : Byte) : (s.emit b).pc = s.pc := rfl
@[simp] theorem State.emit_status (s : State) (b : Byte) : (s.emit b).status = s.status := rfl
@[simp] theorem State.emit_store (s : State) (b : Byte) : (s.emit b).store = s.store := rfl
@[simp] theorem State.emit_out (s : State) (b : Byte) : (s.emit b).out = s.out ++ [b] := rfl
@[simp] theorem State.emit_input (s : State) (b : Byte) : (s.emit b).input = s.input := rfl
@[simp] theorem State.emit_config (s : State) (b : Byte) : (s.emit b).config = s.config := rfl
@[simp] theorem State.emit_reg (s : State) (b : Byte) (r : RegIdx) :
    (s.emit b).reg r = s.reg r := rfl

@[simp] theorem State.takeFault_pc (s : State) (cause : Cause) (index : Word) (inst : Option Word) :
    (s.takeFault cause index inst).pc = s.pc := rfl
@[simp] theorem State.takeFault_status (s : State) (cause : Cause) (index : Word) (inst : Option Word) :
    (s.takeFault cause index inst).status = .faulted cause { index := index, inst := inst } := rfl
@[simp] theorem State.takeFault_store (s : State) (cause : Cause) (index : Word) (inst : Option Word) :
    (s.takeFault cause index inst).store = s.store := rfl
@[simp] theorem State.takeFault_out (s : State) (cause : Cause) (index : Word) (inst : Option Word) :
    (s.takeFault cause index inst).out = s.out := rfl
@[simp] theorem State.takeFault_input (s : State) (cause : Cause) (index : Word) (inst : Option Word) :
    (s.takeFault cause index inst).input = s.input := rfl
@[simp] theorem State.takeFault_config (s : State) (cause : Cause) (index : Word) (inst : Option Word) :
    (s.takeFault cause index inst).config = s.config := rfl
@[simp] theorem State.takeFault_reg (s : State) (cause : Cause) (index : Word) (inst : Option Word) (r : RegIdx) :
    (s.takeFault cause index inst).reg r = s.reg r := rfl

@[simp] theorem State.raiseAtFetch_pc (s : State) (cause : Cause) :
    (s.raiseAtFetch cause).pc = s.pc := rfl
@[simp] theorem State.raiseAtFetch_status (s : State) (cause : Cause) :
    (s.raiseAtFetch cause).status = .faulted cause { index := s.pc, inst := none } := rfl
@[simp] theorem State.raiseAtFetch_store (s : State) (cause : Cause) :
    (s.raiseAtFetch cause).store = s.store := rfl
@[simp] theorem State.raiseAtFetch_out (s : State) (cause : Cause) :
    (s.raiseAtFetch cause).out = s.out := rfl
@[simp] theorem State.raiseAtFetch_input (s : State) (cause : Cause) :
    (s.raiseAtFetch cause).input = s.input := rfl
@[simp] theorem State.raiseAtFetch_config (s : State) (cause : Cause) :
    (s.raiseAtFetch cause).config = s.config := rfl
@[simp] theorem State.raiseAtFetch_reg (s : State) (cause : Cause) (r : RegIdx) :
    (s.raiseAtFetch cause).reg r = s.reg r := rfl

@[simp] theorem State.raise_pc (s : State) (cause : Cause) : (s.raise cause).pc = s.pc := rfl
@[simp] theorem State.raise_status (s : State) (cause : Cause) :
    (s.raise cause).status = .faulted cause { index := s.pc - 1#32, inst := s.store.word 0#32 (s.pc - 1#32) } := rfl
@[simp] theorem State.raise_store (s : State) (cause : Cause) :
    (s.raise cause).store = s.store := rfl
@[simp] theorem State.raise_out (s : State) (cause : Cause) : (s.raise cause).out = s.out := rfl
@[simp] theorem State.raise_input (s : State) (cause : Cause) :
    (s.raise cause).input = s.input := rfl
@[simp] theorem State.raise_config (s : State) (cause : Cause) :
    (s.raise cause).config = s.config := rfl
@[simp] theorem State.raise_reg (s : State) (cause : Cause) (r : RegIdx) :
    (s.raise cause).reg r = s.reg r := rfl

@[simp] theorem State.answerInput_pc (s : State) (r : InputAnswer) :
    (s.answerInput r).pc = s.pc := rfl
@[simp] theorem State.answerInput_status (s : State) (r : InputAnswer) :
    (s.answerInput r).status = s.status := rfl
@[simp] theorem State.answerInput_store (s : State) (r : InputAnswer) :
    (s.answerInput r).store = s.store := rfl
@[simp] theorem State.answerInput_out (s : State) (r : InputAnswer) :
    (s.answerInput r).out = s.out := rfl
@[simp] theorem State.answerInput_input (s : State) (r : InputAnswer) :
    (s.answerInput r).input = { s.input with answers := s.input.answers ++ [r] } := rfl
@[simp] theorem State.answerInput_config (s : State) (r : InputAnswer) :
    (s.answerInput r).config = s.config := rfl
@[simp] theorem State.answerInput_reg (s : State) (r : InputAnswer) (j : RegIdx) :
    (s.answerInput r).reg j = s.reg j := rfl

@[simp] theorem State.endInput_pc (s : State) : s.endInput.pc = s.pc := rfl
@[simp] theorem State.endInput_status (s : State) : s.endInput.status = s.status := rfl
@[simp] theorem State.endInput_store (s : State) : s.endInput.store = s.store := rfl
@[simp] theorem State.endInput_out (s : State) : s.endInput.out = s.out := rfl
@[simp] theorem State.endInput_input (s : State) :
    s.endInput.input = { s.input with ended := true } := rfl
@[simp] theorem State.endInput_config (s : State) : s.endInput.config = s.config := rfl
@[simp] theorem State.endInput_reg (s : State) (r : RegIdx) :
    s.endInput.reg r = s.reg r := rfl

/-- A register reads back what was last written to it (10_state.md R20, R21). -/
theorem State.reg_setReg (s : State) (i j : RegIdx) (v : Word) :
    (s.setReg i v).reg j = if j = i then v else s.reg j := by
  by_cases h : j = i
  · subst h; simp [State.reg, State.setReg]
  · have hne : i.toNat ≠ j.toNat := fun e => h (BitVec.eq_of_toNat_eq e.symm)
    simp [State.reg, State.setReg, hne, h]

@[simp] theorem State.reg_setReg_same (s : State) (i : RegIdx) (v : Word) :
    (s.setReg i v).reg i = v := by simp [State.reg_setReg]

theorem State.reg_setReg_ne (s : State) {i j : RegIdx} (v : Word) (h : j ≠ i) :
    (s.setReg i v).reg j = s.reg j := by simp [State.reg_setReg, h]

/-- Every register is 0 after reset (10_state.md R39). -/
@[simp] theorem State.reset_reg (i : RegIdx) : State.reset.reg i = 0#32 := by
  simp [State.reg, State.reset]

/-- What ends an instruction that can fault: go on with the value, or take the fault. -/
theorem State.orRaise_cases {α : Type} (s : State) (r : Except Cause α) (k : α → State) :
    (∃ v, r = .ok v ∧ s.orRaise r k = .next (k v)) ∨
      ∃ cause, r = .error cause ∧ s.orRaise r k = .next (s.raise cause) := by
  cases r with
  | ok v => exact .inl ⟨v, rfl, rfl⟩
  | error cause => exact .inr ⟨cause, rfl, rfl⟩

@[simp] theorem State.orRaise_ok {α : Type} (s : State) (v : α) (k : α → State) :
    s.orRaise (.ok v) k = .next (k v) := rfl

@[simp] theorem State.orRaise_error {α : Type} (s : State) (cause : Cause) (k : α → State) :
    s.orRaise (.error cause) k = .next (s.raise cause) := rfl

/-- What a request for input can give (45_io_and_host.md R237): the first ready answer; the end of
an ended stream, which stays ended; or no answer. -/
theorem InputStream.next_cases (q : InputStream) :
    (∃ r rest, q.answers = r :: rest ∧ q.next = some (r, { q with answers := rest })) ∨
      (q.answers = [] ∧ q.ended = true ∧ q.next = some (.endOfStream, q)) ∨
      (q.answers = [] ∧ q.ended = false ∧ q.next = none) := by
  obtain ⟨answers, ended⟩ := q
  cases answers <;> cases ended <;> simp [InputStream.next]

end Sys2Proof.Machine
end

