-- ==== Sys2Proof/Laws/Step.lean ====
section
/-! SUPPORT. What one step can do, and what each meaning that can fault can do, each said once. -/

namespace Sys2Proof.Machine

/-- A fetch answers the word of segment 0 at the pc, or faults (41_engine_cycle.md R151). -/
theorem State.fetch_eq_ok {s : State} {inst : Word} :
    s.fetch = .ok inst ↔ s.store.word 0#32 s.pc = some inst := Store.read_eq_ok

/-- What a step from `Running` can do (41_engine_cycle.md R150): the fetch faults, or the decoded
instruction is executed with the pc incremented. -/
theorem step_cases {s : State} (h : s.status = .running) :
    (∃ cause, s.fetch = .error cause ∧ step s = .next (s.raiseAtFetch cause)) ∨
      ∃ inst i, s.fetch = .ok inst ∧ decode inst = .ok i ∧ step s = exec i s.advance := by
  unfold step
  rw [h]
  cases hf : s.fetch with
  | error cause => exact .inl ⟨cause, rfl, rfl⟩
  | ok inst =>
    cases hd : decode inst with
    | error e => rw [decode_eq] at hd; cases hd
    | ok i => exact .inr ⟨inst, i, rfl, hd, by simp [hd]⟩

/-- A step that answers a next state starts from `Running` (41_engine_cycle.md R155). -/
theorem running_of_step {s t : State} (h : step s = .next t) : s.status = .running := by
  unfold step at h
  cases hs : s.status <;> simp_all

/-- DIV can write the quotient or raise `DivideByZero`. -/
theorem execDiv_cases (a b c : RegIdx) (s : State) :
    (s.reg c ≠ 0#32 ∧ execDiv a b c s =
        .next (s.setReg a (BitVec.ofNat 32 ((s.reg b).toNat / (s.reg c).toNat)))) ∨
      (s.reg c = 0#32 ∧ execDiv a b c s = .next (s.raise .divideByZero)) := by
  unfold execDiv wordDiv
  by_cases h : s.reg c = 0#32 <;> simp [h]

/-- SLOAD can write the word read or raise what the read raises. -/
theorem execSload_cases (a b c : RegIdx) (s : State) :
    (∃ g, s.store.segment (s.reg b) = some g ∧ (s.reg c).toNat < g.len ∧
        execSload a b c s = .next (s.setReg a (g.get (s.reg c).toNat))) ∨
      (s.store.segment (s.reg b) = none ∧
        execSload a b c s = .next (s.raise (.unmappedSegment (s.reg b)))) ∨
      ∃ g, s.store.segment (s.reg b) = some g ∧ g.len ≤ (s.reg c).toNat ∧
        execSload a b c s = .next (s.raise (.offsetOutOfBounds (s.reg b) (s.reg c))) := by
  unfold execSload loadAddress
  obtain ⟨g, h1, h2, h3⟩ | ⟨h1, h3⟩ | ⟨g, h1, h2, h3⟩ := s.store.read_cases (s.reg b) (s.reg c)
  · exact .inl ⟨g, h1, h2, by simp [h3]⟩
  · exact .inr (.inl ⟨h1, by simp [h3]⟩)
  · exact .inr (.inr ⟨g, h1, h2, by simp [h3]⟩)

/-- SSTORE can write the word or raise what the write raises. -/
theorem execSstore_cases (a b c : RegIdx) (s : State) :
    (∃ g, s.store.segment (s.reg a) = some g ∧ (s.reg b).toNat < g.len ∧
        execSstore a b c s = .next (s.setStore
          (s.store.setSegment (s.reg a) (g.set (s.reg b).toNat (s.reg c))))) ∨
      (s.store.segment (s.reg a) = none ∧
        execSstore a b c s = .next (s.raise (.unmappedSegment (s.reg a)))) ∨
      ∃ g, s.store.segment (s.reg a) = some g ∧ g.len ≤ (s.reg b).toNat ∧
        execSstore a b c s = .next (s.raise (.offsetOutOfBounds (s.reg a) (s.reg b))) := by
  unfold execSstore storeAddress
  obtain ⟨g, h1, h2, h3⟩ | ⟨h1, h3⟩ | ⟨g, h1, h2, h3⟩ :=
    s.store.write_cases (s.reg a) (s.reg b) (s.reg c)
  · exact .inl ⟨g, h1, h2, by simp [h3]⟩
  · exact .inr (.inl ⟨h1, by simp [h3]⟩)
  · exact .inr (.inr ⟨g, h1, h2, by simp [h3]⟩)

/-- MAP can write the identifier of an allocation or raise `ResourceExhausted`. -/
theorem execMap_cases (b c : RegIdx) (s : State) :
    (∃ id st, s.store.allocate s.config (s.reg c) = .ok (id, st) ∧
        ¬ (s.store.capacityAllows s.config (s.reg c).toNat = false ∨
          s.store.pool = [] ∧ 2 ^ 32 ≤ s.store.nextId) ∧
        execMap b c s = .next ((s.setStore st).setReg b id)) ∨
      ((s.store.capacityAllows s.config (s.reg c).toNat = false ∨
          s.store.pool = [] ∧ 2 ^ 32 ≤ s.store.nextId) ∧
        execMap b c s = .next (s.raise (.resourceExhausted (s.reg c)))) := by
  unfold execMap
  obtain ⟨id, rest, h1, h2, h3⟩ | ⟨h1, h2, h3, h4⟩ | ⟨h1, h2⟩ :=
    s.store.allocate_cases s.config (s.reg c)
  · exact .inl ⟨_, _, h3, by simp [h1, h2], by simp [h3]⟩
  · exact .inl ⟨_, _, h4, by simp only [h1, Bool.true_eq_false, false_or]; omega, by simp [h4]⟩
  · exact .inr ⟨h1, by simp [h2]⟩

/-- UNMAP can free the identifier or raise what the free raises. -/
theorem execUnmap_cases (c : RegIdx) (s : State) :
    (∃ st, s.reg c ≠ 0#32 ∧ (s.store.segment (s.reg c)).isSome ∧
        s.store.free (s.reg c) = .ok st ∧ execUnmap c s = .next (s.setStore st)) ∨
      (s.reg c = 0#32 ∧ execUnmap c s = .next (s.raise .unmapProgramSegment)) ∨
      (s.reg c ≠ 0#32 ∧ s.store.segment (s.reg c) = none ∧
        execUnmap c s = .next (s.raise (.unmappedSegment (s.reg c)))) := by
  unfold execUnmap
  obtain ⟨h1, h2, h3⟩ | ⟨h1, h2⟩ | ⟨h1, h2, h3⟩ := s.store.free_cases (s.reg c)
  · exact .inl ⟨_, h1, h2, h3, by simp [h3]⟩
  · exact .inr (.inl ⟨h1, by simp [h2]⟩)
  · exact .inr (.inr ⟨h1, h2, by simp [h3]⟩)

/-- LOADP can jump, jump into a replaced program, or raise `UnmappedSegment`. -/
theorem execLoadp_cases (b c : RegIdx) (s : State) :
    (s.reg b = 0#32 ∧ execLoadp b c s = .next (s.setPc (s.reg c))) ∨
      (∃ g, s.reg b ≠ 0#32 ∧ s.store.segment (s.reg b) = some g ∧
        execLoadp b c s =
          .next ((s.setStore (s.store.setSegment 0#32 g)).setPc (s.reg c))) ∨
      (s.reg b ≠ 0#32 ∧ s.store.segment (s.reg b) = none ∧
        execLoadp b c s = .next (s.raise (.unmappedSegment (s.reg b)))) := by
  unfold execLoadp
  by_cases h : s.reg b = 0#32
  · exact .inl ⟨h, by simp [h]⟩
  · obtain ⟨g, h1, h2⟩ | ⟨h1, h2⟩ := s.store.replaceProgram_cases (s.reg b)
    · exact .inr (.inl ⟨g, h, h1, by simp [h, h2]⟩)
    · exact .inr (.inr ⟨h, h1, by simp [h, h2]⟩)

/-- OUT can emit a byte or raise `OutputOutOfRange`. -/
theorem execOut_cases (c : RegIdx) (s : State) :
    ((s.reg c).toNat ≤ 255 ∧ execOut c s = .next (s.emit ((s.reg c).setWidth 8))) ∨
      (255 < (s.reg c).toNat ∧ execOut c s = .next (s.raise (.outputOutOfRange (s.reg c)))) := by
  unfold execOut outputByte
  by_cases h : 255 < (s.reg c).toNat
  · exact .inr ⟨h, by simp [h]⟩
  · exact .inl ⟨by omega, by simp [h]⟩

/-- IN can take an answer or wait, which is no step. -/
theorem execInp_cases (c : RegIdx) (s : State) :
    (∃ r q, s.input.next = some (r, q) ∧
        execInp c s = .next ((s.setInput q).setReg c r.value)) ∨
      (s.input.next = none ∧ execInp c s = .fault .awaitingInput) := by
  unfold execInp
  cases h : s.input.next with
  | none => simp
  | some p => exact .inl ⟨p.1, p.2, rfl, rfl⟩

/-- An instruction answers a next state unless it is an IN that waits; none is refused. -/
theorem exec_cases (i : Instr) (s : State) :
    (¬ Waits i s ∧ ∃ t, exec i s = .next t) ∨
      (Waits i s ∧ exec i s = .fault .awaitingInput) := by
  have orRaise {α : Type} (r : Except Cause α) (k : α → State) : ∃ t, s.orRaise r k = .next t := by
    cases r <;> exact ⟨_, rfl⟩
  cases i with
  | inp a b c =>
    obtain ⟨r, q, hq, he⟩ | h := execInp_cases c s
    · exact .inl ⟨by simp [Waits, hq], _, he⟩
    · exact .inr h
  | loadp a b c =>
    refine .inl ⟨id, ?_⟩
    change ∃ t, execLoadp b c s = .next t
    unfold execLoadp
    split
    · exact ⟨_, rfl⟩
    · exact orRaise _ _
  | _ => exact .inl ⟨id, by first | exact ⟨_, rfl⟩ | exact orRaise _ _⟩

end Sys2Proof.Machine
end

