-- ==== Sys2Proof/Tests/Slice0.lean ====
section
/-! SUPPORT. Tests of the model on single steps, with results taken from 95_test_vectors.md and from
the worked examples of the rules; and a witness for every statement that has hypotheses. -/

namespace Sys2Proof.Tests

open Sys2Proof Sys2Proof.Machine

/-! ## Helpers -/

/-- The Machine at reset with a program, unbounded capacity and an ended input stream, and then
some registers set. -/
def bench (program : List Word) (rs : List (RegIdx × Word)) : State :=
  rs.foldl (fun s r => s.setReg r.1 r.2)
    (State.boot Config.default program { answers := [], ended := true })

/-- `bench` with further segments mapped, with the identifiers freed, and with `next_id` set. -/
def benchStore (program : List Word) (rs : List (RegIdx × Word)) (segs : List (Nat × Segment))
    (pool : List SegId) (nextId : Nat) : State :=
  (bench program rs).setStore
    { seg := (0, Segment.ofWords program) :: segs, pool := pool, nextId := nextId }

/-- The next state of a step, if there is one. -/
def stepped (s : State) : Option State :=
  match step s with
  | .next t => some t
  | .fault _ => none
  | .refused _ => none

/-- The next state of an instruction, if there is one. -/
def executed (i : Instr) (s : State) : Option State :=
  match exec i s with
  | .next t => some t
  | .fault _ => none
  | .refused _ => none

/-- What a step made of the fields a test looks at. -/
def seen {α : Type} (s : State) (f : State → α) : Option α := (stepped s).map f

theorem next_of_stepped {s t : State} (h : stepped s = some t) : step s = .next t := by
  unfold stepped at h
  cases hs : step s <;> simp_all

theorem next_of_executed {i : Instr} {s t : State} (h : executed i s = some t) :
    exec i s = .next t := by
  unfold executed at h
  cases hs : exec i s <;> simp_all

/-! ## Well-formedness: one ill-formed term for each check -/

theorem test_wellFormed_refuses_unrec14 : (Instr.unrec14 0xF0000000#32).wellFormed = false := by
  decide

theorem test_wellFormed_refuses_unrec15 : (Instr.unrec15 0xE0000000#32).wellFormed = false := by
  decide

theorem test_wellFormed_accepts_unrec : (Instr.unrec14 0xE0000001#32).wellFormed = true ∧
    (Instr.unrec15 0xFFFFFFFF#32).wellFormed = true := by decide

/-! ## Decoding: words written out bit by bit, opcode, unused bits, a, b, c (30_encoding.md R91) or
opcode, a, imm (R93) -/

theorem test_decode_cmov :
    decode 0b0000_0000000000000000000_001_010_011#32 = .ok (.cmov 1 2 3) := by decide

theorem test_decode_sload :
    decode 0b0001_0000000000000000000_000_001_010#32 = .ok (.sload 0 1 2) := by decide

theorem test_decode_sstore :
    decode 0b0010_0000000000000000000_010_011_100#32 = .ok (.sstore 2 3 4) := by decide

/-- Bits [27:9] set: the same instruction (30_encoding.md R98). -/
theorem test_decode_add :
    decode 0b0011_1111111111111111111_000_001_010#32 = .ok (.add 0 1 2) := by decide

theorem test_decode_mul :
    decode 0b0100_0000000000000000000_011_100_101#32 = .ok (.mul 3 4 5) := by decide

theorem test_decode_div :
    decode 0b0101_0000000000000000000_000_001_010#32 = .ok (.div 0 1 2) := by decide

theorem test_decode_nand :
    decode 0b0110_0000000000000000000_111_110_110#32 = .ok (.nand 7 6 6) := by decide

theorem test_decode_halt :
    decode 0b0111_1111111111111111111_111_111_111#32 = .ok (.halt 7 7 7) := by decide

theorem test_decode_map :
    decode 0b1000_0000000000000000000_111_001_010#32 = .ok (.map 7 1 2) := by decide

theorem test_decode_unmap :
    decode 0b1001_0000000000000000000_000_000_010#32 = .ok (.unmap 0 0 2) := by decide

theorem test_decode_out :
    decode 0b1010_0000000000000000000_000_000_001#32 = .ok (.out 0 0 1) := by decide

theorem test_decode_inp :
    decode 0b1011_0000000000000000000_000_000_011#32 = .ok (.inp 0 0 3) := by decide

theorem test_decode_loadp :
    decode 0b1100_0000000000000000000_000_001_010#32 = .ok (.loadp 0 1 2) := by decide

/-- Bits [8:6] are immediate bits here, not a register (30_encoding.md R93). -/
theorem test_decode_loadv :
    decode 0b1101_000_0000000000000000111000000#32 = .ok (.loadv 0 448) := by decide

theorem test_decode_unrec14 :
    decode 0b1110_0000000000000000000_000_000_000#32 = .ok (.unrec14 0xE0000000#32) := by decide

theorem test_decode_unrec15 :
    decode 0b1111_1111111111111111111_111_111_111#32 = .ok (.unrec15 0xFFFFFFFF#32) := by decide

theorem test_encode_words : encode (.sstore 2 3 4) = 0x2000009C#32 ∧
    encode (.loadv 7 33554431) = 0xDFFFFFFF#32 ∧ encode (.halt 0 0 0) = 0x70000000#32 ∧
    encode (.loadp 0 7 4) = 0xC000003C#32 := by decide

/-! ## The codec (95_test_vectors.md section 2) -/

theorem test_fits_unsigned : fitsUnsigned 255 8 = .ok true ∧ fitsUnsigned 256 8 = .ok false ∧
    fitsUnsigned 0xFFFFFFFFFFFFFFFF 64 = .ok true ∧ fitsUnsigned 0 0 = .contractViolation ∧
    fitsUnsigned 0 65 = .contractViolation := by decide

theorem test_fits_signed : fitsSigned (-128) 8 = .ok true ∧ fitsSigned 128 8 = .ok false ∧
    fitsSigned 1 1 = .ok false ∧ fitsSigned (-9223372036854775808) 64 = .ok true ∧
    fitsSigned (-1) 65 = .contractViolation := by decide

theorem test_get_unsigned : getUnsigned 0x3F4 6 2 = .ok 61 ∧
    getUnsigned 0xDEADBEEFCAFEF00D 16 24 = .ok 0xEFCA ∧
    getUnsigned 0xFFFFFFFFFFFFFFFF 64 0 = .ok 0xFFFFFFFFFFFFFFFF ∧
    getUnsigned 0 64 1 = .contractViolation := by decide

/-- The source's literal for `get_signed(151, 5, 2)` is wrong (90_conflicts.md C1). -/
theorem test_get_signed : getSigned 111 5 2 = .ok (-5) ∧ getSigned 151 5 2 = .ok 5 ∧
    getSigned 0x8000000000000000 64 0 = .ok (-9223372036854775808) ∧
    getSigned 0 10 60 = .contractViolation := by decide

theorem test_set_unsigned : setUnsigned 1024 6 2 19 = .ok 1100 ∧
    setUnsigned 1024 6 2 63 = .ok 1276 ∧ setUnsigned 1024 6 2 64 = .doesNotFit ∧
    setUnsigned 0 8 60 256 = .contractViolation := by decide

/-- The source's literal for `set_signed(32, 3, 2, -3)` is wrong (90_conflicts.md C2). -/
theorem test_set_signed : setSigned 32 3 2 (-3) = .ok 52 ∧ setSigned 32 3 2 3 = .ok 44 ∧
    setSigned 32 3 2 4 = .doesNotFit ∧ setSigned 0 4 61 0 = .contractViolation := by decide

theorem test_codec_block :
    codecRespond ⟨3, 111, 5, 2, 0⟩ = .ok 0xFFFFFFFFFFFFFFFB#64 ∧
    codecRespond ⟨5, 32, 3, 2, 0xFFFFFFFFFFFFFFFD#64⟩ = .ok 52#64 ∧
    codecRespond ⟨7, 0, 1, 0, 0⟩ = .contractViolation := by decide

/-! ## One step of each instruction (95_test_vectors.md section 3) -/

theorem test_cmov_moves : seen (bench [0x00000053] [(1, 9), (2, 7), (3, 0x80000000)])
    (fun t => (t.reg 1, t.pc)) = some (7, 1) := by decide

theorem test_cmov_keeps : seen (bench [0x00000053] [(1, 9), (2, 7)]) (fun t => t.reg 1) = some 9 := by
  decide

theorem test_add_wraps : seen (bench [0x3000000A] [(1, 0xFFFFFFFF), (2, 2)])
    (fun t => t.reg 0) = some 1 := by decide

theorem test_mul_wraps : seen (bench [0x400000E5] [(4, 0x80000001), (5, 3)])
    (fun t => t.reg 3) = some 0x80000003 := by decide

theorem test_div_unsigned : seen (bench [0x5000000A] [(1, 0xFFFFFFFF), (2, 2)])
    (fun t => t.reg 0) = some 0x7FFFFFFF := by decide

theorem test_div_zero_faults : seen (bench [0x5000000A] [(0, 8), (1, 17)])
    (fun t => (t.status, t.reg 0, t.pc)) =
      some (.faulted .divideByZero ⟨0, some 0x5000000A⟩, 8, 1) := by decide

theorem test_nand : seen (bench [0x6000000A] [(1, 0xFFFF0000), (2, 0xFF00FF00)])
    (fun t => t.reg 0) = some 0x00FFFFFF := by decide

theorem test_loadv : seen (bench [0xDFFFFFFF] []) (fun t => t.reg 7) = some 0x01FFFFFF := by decide

theorem test_sload_reads_program : seen (bench [0x1000000A] []) (fun t => t.reg 0) =
    some 0x1000000A := by decide

theorem test_sload_out_of_bounds : seen (bench [0x100000C1, 0, 0, 0] [(1, 4)])
    (fun t => t.status) =
      some (.faulted (.offsetOutOfBounds 0 4) ⟨0, some 0x100000C1⟩) := by decide

theorem test_sstore_writes :
    seen (benchStore [0x2000000A] [(0, 1), (1, 9), (2, 0xDEADBEEF)] [(1, Segment.zeros 10)] [] 2)
      (fun t => (t.store.word 1 9, t.store.word 1 8)) = some (some 0xDEADBEEF, some 0) := by decide

theorem test_sstore_unmapped : seen (bench [0x2000000A] [(0, 5)]) (fun t => t.status) =
    some (.faulted (.unmappedSegment 5) ⟨0, some 0x2000000A⟩) := by decide

theorem test_map_fresh : seen (bench [0x8000000A] [(2, 10)])
    (fun t => (t.reg 1, t.store.words 1, t.store.nextId)) =
      some (1, some (List.replicate 10 0), 2) := by decide

theorem test_map_reuses_last_freed :
    seen (benchStore [0x80000025] [(5, 1)] [(3, Segment.zeros 0)] [1, 2] 4)
      (fun t => (t.reg 4, t.store.pool, t.store.nextId)) = some (1, [2], 4) := by decide

theorem test_unmap :
    seen (benchStore [0x90000002] [(2, 2)]
        [(1, Segment.zeros 0), (2, Segment.zeros 0), (3, Segment.zeros 0)] [] 4)
      (fun t => (t.store.segment 2, t.store.pool)) = some (none, [2]) := by decide

theorem test_unmap_program : seen (bench [0x90000002] []) (fun t => t.status) =
    some (.faulted .unmapProgramSegment ⟨0, some 0x90000002⟩) := by decide

theorem test_halt : seen (bench [0x7FFFFFFF] []) (fun t => (t.status, t.pc)) =
    some (.halted, 1) := by decide

theorem test_loadp_jumps : seen (bench [0xC000000A] [(2, 5)])
    (fun t => (t.pc, t.store.words 0)) = some (5, some [0xC000000A]) := by decide

theorem test_loadp_copies :
    seen (benchStore [0xC000000A] [(1, 3)] [(3, Segment.ofWords [0xA0000005, 0x70000000])] [] 4)
      (fun t => (t.pc, t.store.words 0, t.store.words 3)) =
        some (0, some [0xA0000005, 0x70000000], some [0xA0000005, 0x70000000]) := by decide

theorem test_unrec14 : stepped (bench [0xE0000000] []) = some ((bench [0xE0000000] []).setPc 1) := by
  decide

theorem test_unrec15 : stepped (bench [0xFFFFFFFF] []) = some ((bench [0xFFFFFFFF] []).setPc 1) := by
  decide

theorem test_out_emits : seen (bench [0xA0000001] [(1, 255)]) (fun t => t.out) = some [0xFF] := by
  decide

theorem test_out_faults : seen (bench [0xA0000001] [(1, 256)]) (fun t => (t.status, t.out)) =
    some (.faulted (.outputOutOfRange 256) ⟨0, some 0xA0000001⟩, []) := by decide

theorem test_in_byte :
    seen ((bench [0xB0000003] []).setInput (InputStream.ofBytes [0xFF, 0x41]))
      (fun t => (t.reg 3, t.input)) = some (0xFF, InputStream.ofBytes [0x41]) := by decide

theorem test_in_end : seen (bench [0xB0000003] []) (fun t => t.reg 3) = some 0xFFFFFFFF := by decide

theorem test_fetch_past_end : seen ((bench [0xD0000001] []).setPc 1) (fun t => (t.status, t.pc)) =
    some (.faulted (.offsetOutOfBounds 0 1) ⟨1, none⟩, 1) := by decide

/-- The image of program P1 (95_test_vectors.md section 4), first two words. -/
theorem test_image : imageWords [0xD0, 0, 0, 5, 0xD2, 0, 0, 0xFF] = some [0xD0000005, 0xD20000FF] ∧
    imageWords [0xD0, 0, 0] = none := by decide

theorem test_cause_codes : Cause.code (.unmappedSegment 0) = 1 ∧
    Cause.code (.offsetOutOfBounds 0 0) = 2 ∧ Cause.code .divideByZero = 3 ∧
    Cause.code (.outputOutOfRange 256) = 4 ∧ Cause.code .unmapProgramSegment = 5 ∧
    Cause.code (.resourceExhausted 0) = 6 ∧ Cause.code .contractViolation = 7 := by decide

/-- What the host asks of every row: the decoder gives it, and `step` runs it first after reset. -/
theorem test_fetch_word_runs : (stepped (State.reset.withFetchWord 32 0xD20000FF)).map
    (fun t => t.reg 1) = some 255 := by decide

end Sys2Proof.Tests
end

