-- ==== Sys2Proof/Tests/Witnesses.lean ====
section
/-! SUPPORT. For every statement with hypotheses or cases, concrete values that meet them, with one
witness for each case at a boundary of its range. -/

namespace Sys2Proof.Tests

open Sys2Proof Sys2Proof.Machine

/-! ## Encoding and the codec -/

theorem witness_DecodeAfterEncodeIsIdentity : (Instr.unrec14 0xE0000001#32).WellFormed ∧
    (Instr.unrec15 0xF0000000#32).WellFormed ∧ (Instr.loadp 7 7 7).WellFormed ∧
    (Instr.loadv 7 33554431).WellFormed := by decide

/-- The last three-register opcode and the first other one. -/
theorem witness_EncodeAfterDecodeClearsUnusedBits :
    decode 0xCFFFFFFF#32 = .ok (.loadp 7 7 7) ∧ (0xCFFFFFFF#32).extractLsb' 28 4 = 12#4 ∧
    decode 0xDFFFFFFF#32 = .ok (.loadv 7 33554431) ∧ (0xDFFFFFFF#32).extractLsb' 28 4 = 13#4 := by
  decide

theorem witness_UnusedBitsAreNotDecoded :
    ((0x3FFFFE0A#32).extractLsb' 28 4).toNat ≤ 12 ∧
    (0x3FFFFE0A#32).extractLsb' 28 4 = (0x3000000A#32).extractLsb' 28 4 ∧
    (0x3FFFFE0A#32).extractLsb' 0 9 = (0x3000000A#32).extractLsb' 0 9 := by decide

theorem witness_EncodingIsCodecInsertion :
    threeRegister 12 7 7 7 = some (.loadp 7 7 7) ∧ threeRegister 0 0 0 0 = some (.cmov 0 0 0) ∧
    2 ^ 25 ≤ (0x2000000#64).toNat := by decide

/-- The corners of `ValidWidth` and `ValidField`, on both sides. -/
theorem witness_valid_fields :
    ValidField 64 0 ∧ ValidField 1 63 ∧ ¬ ValidField 64 1 ∧ ¬ ValidField 1 64 ∧
    ¬ ValidField 0 0 ∧ ¬ ValidField 65 0 ∧ ValidWidth 1 ∧ ValidWidth 64 ∧ ¬ ValidWidth 0 ∧
    ¬ ValidWidth 65 := by decide

/-- `SetUnsignedReplacesTheField`: the largest value that fits and the first that does not. -/
theorem witness_SetUnsignedReplacesTheField : ValidField 6 2 ∧ (63#64).toNat < 2 ^ 6 ∧
    ¬ (64#64).toNat < 2 ^ 6 := by decide

/-- `SetSignedStoresTwosComplement`: both ends of the range and the first values outside. -/
theorem witness_SetSignedStoresTwosComplement : ValidField 3 2 ∧ FitsSigned (-4) 3 ∧
    FitsSigned 3 3 ∧ ¬ FitsSigned (-5) 3 ∧ ¬ FitsSigned 4 3 := by decide

theorem witness_CodecRoundTrips : ValidField 6 2 ∧ (63#64).toNat < 2 ^ 6 ∧ ValidField 3 2 ∧
    FitsSigned (-4) 3 ∧ fitsUnsigned 64 6 = .ok false := by decide

/-- Two fields that touch. -/
theorem witness_CodecSetLeavesOtherFields :
    ValidField 16 24 ∧ ValidField 24 0 ∧ 0 + 24 ≤ 24 ∧
    setUnsigned 0xDEADBEEFCAFEF00D 16 24 0x1234 = .ok 0xDEADBE1234FEF00D ∧
    setSigned 0xDEADBEEFCAFEF00D 16 24 (-2) = .ok 0xDEADBEFFFEFEF00D := by decide

theorem witness_CodecGetAndSetAgree : ValidField 6 2 ∧ fitsSigned (-32) 6 = .ok true ∧
    fitsSigned 32 6 = .ok false ∧ setUnsigned 1024 6 2 63 = .ok 1276 := by decide

theorem witness_TwosComplementMapsAreInverse : FitsSigned (-1) 1 ∧ FitsSigned 0 1 ∧
    1 < 2 ^ 1 ∧ FitsSigned (-16) 5 ∧ FitsSigned 15 5 ∧ 31 < 2 ^ 5 := by decide

theorem witness_ImageIsBigEndianWords : ([1, 2, 3, 4] : List Byte).length % 4 = 0 ∧
    ([1, 2, 3, 4, 5] : List Byte).length % 4 ≠ 0 := by decide

/-! ## A state that meets the invariant -/

/-- Segment 0 holds three words, segment 2 is mapped, identifier 1 is free. -/
def mixed : State :=
  benchStore [0x2000000A, 0xC000000A, 0x70000000] [(1, 1), (2, 2), (4, 0x105)]
    [(2, Segment.ofWords [7, 0, 9])] [1] 3

theorem mixed_inv : mixed.Inv where
  store :=
    { canonical := by decide
      programMapped := by decide
      programNotFree := by decide
      mappedOrFree := by decide
      mappedBelow := by decide
      freeBelow := fun id h => by cases List.mem_singleton.mp h; decide
      poolNodup := by decide
      nextPos := by decide
      nextLe := by decide }
  noContractViolation := fun _ h => by cases h

theorem witness_AllocateNeverReturnsLiveIdentifier : mixed.store.Inv ∧
    (∃ st, mixed.store.allocate mixed.config 5 = .ok (1, st)) ∧
    ∃ st, (bench [] []).store.allocate mixed.config 5 = .ok (1, st) :=
  ⟨mixed_inv.store, ⟨_, rfl⟩, ⟨_, rfl⟩⟩

theorem witness_EveryStepKeepsTheInvariant : mixed.Inv ∧ ∃ t, step mixed = .next t :=
  ⟨mixed_inv, _, rfl⟩

theorem witness_ResetMeetsTheInvariant : ([0xD0000005, 0x70000000] : List Word).length < 2 ^ 32 := by
  decide

theorem witness_CanonicalSegmentsAreDetermined : (Segment.ofWords [7, 0, 9]).wf ∧
    ((Segment.zeros 3).set 0 7 |>.set 2 9).wf ∧
    (Segment.ofWords [7, 0, 9]).words = ((Segment.zeros 3).set 0 7 |>.set 2 9).words := by decide

/-- A segment that stays mapped, and segment 0 replaced by LOADP. -/
theorem witness_SegmentLengthsAreFixed :
    (∃ t g, mixed.Inv ∧ step mixed = .next t ∧ mixed.store.segment 2 = some g ∧
      t.store.segment 2 = some g) ∧
    ∃ t g g', (mixed.setReg 1 2).store.Inv ∧ step ((mixed.setReg 1 2).setPc 1) = .next t ∧
      (mixed.setReg 1 2).store.segment 0 = some g ∧ t.store.segment 0 = some g' :=
  ⟨⟨_, _, mixed_inv, rfl, rfl, rfl⟩, ⟨_, _, _, mixed_inv.store, rfl, rfl, rfl⟩⟩

theorem witness_PcIncrementNeverWraps : mixed.Inv ∧ mixed.fetch = .ok 0x2000000A :=
  ⟨mixed_inv, rfl⟩

/-! ## Data operations -/

/-- A condition whose low bits are all 0 still moves; a zero condition does not. -/
theorem witness_CmovMovesOnNonZero : (mixed.setReg 3 0x80000000).reg 3 ≠ 0#32 ∧
    mixed.reg 3 = 0#32 := by decide

theorem witness_RunEndsCleanOrAbnormal : mixed.runEnd = none ∧
    (mixed.setStatus .halted).runEnd = some .clean ∧
    (mixed.raise .divideByZero).runEnd = some .abnormal ∧
    (∃ t, step mixed = .next t) ∧ ∀ t, step (mixed.setStatus .halted) ≠ .next t :=
  ⟨rfl, rfl, rfl, ⟨_, rfl⟩, nofun⟩

theorem witness_DivWritesQuotientOrFaults : mixed.reg 0 = 0#32 ∧ mixed.reg 1 ≠ 0#32 := by decide

/-! ## Segment operations: each case, at the last offset inside and the first outside -/

theorem witness_SloadReadsWordOrFaults :
    mixed.store.segment (mixed.reg 1) = none ∧
    (mixed.store.segment (mixed.reg 2)).map (fun g => decide ((mixed.reg 2).toNat < g.len)) =
      some true ∧
    ((mixed.setReg 3 3).store.segment (mixed.reg 2)).map
      (fun g => decide (((mixed.setReg 3 3).reg 3).toNat < g.len)) = some false := by decide

theorem witness_SstoreWritesOneWordOrFaults :
    storeAddress mixed 1 2 = (1, 2) ∧ mixed.store.segment 1 = none ∧
    storeAddress mixed 2 2 = (2, 2) ∧
    (mixed.store.segment 2).map (fun g => decide ((2 : Word).toNat < g.len)) = some true ∧
    storeAddress (mixed.setReg 3 3) 2 3 = (2, 3) ∧
    (mixed.store.segment 2).map (fun g => decide ((3 : Word).toNat < g.len)) = some false := by
  decide

/-- Out of capacity by one word, out of identifiers, and the two ways to allocate: capacity just
enough with a freed identifier, and the last fresh identifier. -/
theorem witness_MapAllocatesZeroSegmentOrFaults :
    mixed.store.capacityAllows { capacityWords := some 10 } 5 = false ∧
    mixed.store.capacityAllows { capacityWords := some 11 } 5 = true ∧ mixed.store.pool ≠ [] ∧
    (benchStore [] [] [] [] (2 ^ 32)).store.pool = [] ∧
    2 ^ 32 ≤ (benchStore [] [] [] [] (2 ^ 32)).store.nextId ∧
    (benchStore [] [] [] [] (2 ^ 32 - 1)).store.pool = [] ∧
    ¬ 2 ^ 32 ≤ (benchStore [] [] [] [] (2 ^ 32 - 1)).store.nextId := by decide

theorem witness_UnmapFreesIdentifierOrFaults : mixed.reg 0 = 0#32 ∧
    mixed.reg 1 ≠ 0#32 ∧ mixed.store.segment (mixed.reg 1) = none ∧
    mixed.reg 2 ≠ 0#32 ∧ mixed.store.segment (mixed.reg 2) ≠ none := by decide

theorem witness_MapAfterUnmapReusesIdentifier : mixed.config.capacityWords = none ∧
    mixed.reg 2 ≠ 0#32 ∧ mixed.store.segment (mixed.reg 2) ≠ none := by decide

theorem witness_StoreIntoProgramIsFetchedNext : (mixed.setPc 2).reg 0 = 0#32 ∧
    (mixed.setPc 2).reg 2 = (mixed.setPc 2).pc ∧
    (mixed.store.segment 0).map (fun g => decide ((2 : Word).toNat < g.len)) = some true := by decide

/-! ## Control operations -/

theorem witness_LoadpReplacesProgramAndJumps : mixed.reg 0 = 0#32 ∧
    mixed.reg 1 ≠ 0#32 ∧ mixed.store.segment (mixed.reg 1) = none ∧
    mixed.reg 2 ≠ 0#32 ∧ mixed.store.segment (mixed.reg 2) ≠ none := by decide

theorem witness_UnrecognizedOpcodesAreInert :
    (bench [0xE0000000] []).status = .running ∧ (bench [0xE0000000] []).fetch = .ok 0xE0000000 ∧
    14 ≤ ((0xE0000000 : Word).extractLsb' 28 4).toNat ∧
    (bench [0xFFFFFFFF] []).fetch = .ok 0xFFFFFFFF ∧
    14 ≤ ((0xFFFFFFFF : Word).extractLsb' 28 4).toNat := ⟨rfl, rfl, by decide, rfl, by decide⟩

/-! ## Input and output -/

/-- The last byte value and the first value above it. -/
theorem witness_OutEmitsByteOrFaults : ¬ 255 < ((mixed.setReg 3 255).reg 3).toNat ∧
    255 < ((mixed.setReg 3 256).reg 3).toNat := by decide

theorem witness_InWritesByteOrSentinel :
    (mixed.setInput (InputStream.ofBytes [0xFF])).input.next =
      some (.byte 0xFF, InputStream.ofBytes []) ∧
    mixed.input.next = some (.endOfStream, InputStream.ofBytes []) := by decide

/-- A running Machine about to execute `IN r3` whose environment has not answered. -/
def silent : State := (bench [0xB0000003] []).setInput { answers := [], ended := false }

theorem silent_waits : silent.AwaitsInput :=
  ⟨rfl, 0xB0000003, .inp 0 0 3, rfl, by decide, rfl⟩

/-- 93_implementation_defined.md U7: neither a value nor a fatal fault; the step has no next state. -/
theorem test_in_waits : (∀ t, step silent ≠ .next t) ∧ silent.status = .running := ⟨nofun, rfl⟩

theorem witness_InWaitsForTheEnvironment : silent.status = .running ∧
    silent.fetch = .ok 0xB0000003 ∧ decode 0xB0000003 = .ok (.inp 0 0 3) ∧
    silent.input.next = none := ⟨rfl, rfl, by decide, rfl⟩

/-! ## Faults and steps -/

theorem witness_FaultsAreThoseOfTheTable : mixed.status = .running ∧
    Raises (.div 0 1 0) mixed .divideByZero ∧
    Raises (.unmap 0 0 0) mixed .unmapProgramSegment ∧
    Raises (.sload 0 1 2) mixed (.unmappedSegment 1) ∧
    Raises (.out 0 0 4) mixed (.outputOutOfRange 0x105) ∧
    Raises (.sstore 2 4 0) mixed (.offsetOutOfBounds 2 0x105) ∧
    Raises (.map 0 1 2) (benchStore [] [] [] [] (2 ^ 32)) (.resourceExhausted 0) :=
  ⟨rfl, rfl, rfl, ⟨rfl, rfl⟩, ⟨rfl, by decide⟩, ⟨rfl, rfl, _, rfl, by decide⟩,
    ⟨rfl, .inr ⟨rfl, by decide⟩⟩⟩

theorem witness_FetchPastEndFaults : (mixed.setPc 3).status = .running ∧
    (mixed.store.segment 0).map (fun g => decide (g.len ≤ (3 : Word).toNat)) = some true := by decide

/-- A fault of the dispatch and a fault of the fetch. -/
theorem witness_FaultingStepHasNoEffect :
    (∃ t info, step (bench [0x5000000A] []) = .next t ∧ t.status = .faulted .divideByZero info) ∧
    ∃ t info, step (bench [] []) = .next t ∧
      t.status = .faulted (.offsetOutOfBounds 0 0) info :=
  ⟨⟨_, _, rfl, rfl⟩, ⟨_, _, rfl, rfl⟩⟩

theorem witness_StepExecutesDecodedInstruction : mixed.status = .running ∧
    mixed.store.word 0 mixed.pc = some 0x2000000A ∧
    decode 0x2000000A = .ok (.sstore 0 1 2) := ⟨rfl, rfl, by decide⟩

/-- A running Machine that can step, and one that waits. -/
theorem witness_StepFromRunningCompletesOrWaits : mixed.status = .running ∧ ¬ mixed.AwaitsInput ∧
    silent.status = .running ∧ silent.AwaitsInput := by
  refine ⟨rfl, ?_, rfl, silent_waits⟩
  rintro ⟨-, inst, i, hf, hd, hw⟩
  cases hf
  cases (show Except.ok (Instr.sstore 0 1 2) = Except.ok i from (by decide : _ = _).symm.trans hd)
  exact hw

theorem witness_OnlyTheDestinationIsWritten : (∃ t, exec (.add 3 1 2) mixed = .next t) ∧
    destination (.add 3 1 2) ≠ some 4 := ⟨⟨_, rfl⟩, by decide⟩

theorem witness_UnreadRegistersHaveNoInfluence : 3 ∉ sources (.add 3 1 2) ∧
    ∃ t, exec (.add 3 1 2) mixed = .next t := ⟨by decide, _, rfl⟩

theorem witness_OnlyLoadpMovesThePc : mixed.fetch = .ok 0x2000000A ∧
    decode 0x2000000A = .ok (.sstore 0 1 2) ∧
    (∃ t, step mixed = .next t) ∧ ∀ a b c, Instr.sstore 0 1 2 ≠ .loadp a b c :=
  ⟨rfl, by decide, ⟨_, rfl⟩, fun _ _ _ h => by cases h⟩

theorem witness_OnlyHaltHalts : ∃ t, step (mixed.setPc 2) = .next t ∧ t.status = .halted :=
  ⟨_, rfl, rfl⟩

theorem witness_OnlyStoreInstructionsTouchTheStore : (∃ t, exec (.add 3 1 2) mixed = .next t) ∧
    ∀ a b c : RegIdx, Instr.add 3 1 2 ≠ .sstore a b c ∧ Instr.add 3 1 2 ≠ .map a b c ∧
      Instr.add 3 1 2 ≠ .unmap a b c ∧ Instr.add 3 1 2 ≠ .loadp a b c :=
  ⟨⟨_, rfl⟩, fun _ _ _ => ⟨nofun, nofun, nofun, nofun⟩⟩

theorem witness_OutputGrowsOnlyByOut :
    ∃ t, step (bench [0xA0000001] [(1, 255)]) = .next t ∧ t.out = [0xFF] := ⟨_, rfl, rfl⟩

theorem witness_InputIsConsumedOnlyByIn :
    ∃ t, step ((bench [0xB0000003] []).setInput (InputStream.ofBytes [0x41])) = .next t ∧
      t.input = InputStream.ofBytes [] := ⟨_, rfl, rfl⟩

end Sys2Proof.Tests
end

section
/-! Proofs about the state: the registers (10_state.md R20, R21). -/

namespace Sys2Proof.Machine

/-- The loader seeds segment 0 only, so the registers are those of reset (10_state.md R39). -/
@[simp] theorem State.boot_reg (cfg : Config) (program : List Word) (input : InputStream)
    (i : RegIdx) : (State.boot cfg program input).reg i = 0#32 :=
  -- `boot` keeps the field `regs` of `reset`, so `reset_reg` is this statement up to unfolding.
  State.reset_reg i

/-- Settles O18: `boot_reg` for the registers at reset, and the read-after-write rule
`reg_setReg` for every register, `x[0]` included. -/
theorem registersReadBackWhatWasWritten : Obligations.RegistersReadBackWhatWasWritten :=
  ⟨State.boot_reg, State.reg_setReg⟩

end Sys2Proof.Machine
end

section
/-! Proofs about two's complement (40_bitfield_codec.md R133). -/

namespace Sys2Proof.Machine

/-- A width of at least 1 splits the unsigned range into two halves of `2^(width-1)`. -/
theorem two_pow_eq_two_mul_half {width : Nat} (hw : 1 ≤ width) :
    (2 : Int) ^ width = 2 * 2 ^ (width - 1) :=
  (mul_pow_sub_one (by omega) 2).symm

/-- The top bit of a field tells the upper half of the unsigned range from the lower. -/
theorem testBit_top_iff {width field : Nat} (hw : 1 ≤ width) (hf : field < 2 ^ width) :
    field.testBit (width - 1) = true ↔ 2 ^ (width - 1) ≤ field :=
  ⟨Nat.ge_two_pow_of_testBit, fun h =>
    Nat.testBit_of_two_pow_le_and_two_pow_add_one_gt h (by rwa [Nat.sub_add_cancel hw])⟩

theorem toTwos_cast (width : Nat) (value : Int) :
    (toTwos width value : Int) = value % (2 : Int) ^ width :=
  Int.toNat_of_nonneg (Int.emod_nonneg _ (by positivity))

theorem toTwos_lt (width : Nat) (value : Int) : toTwos width value < 2 ^ width := by
  have : (toTwos width value : Int) < (2 : Int) ^ width :=
    toTwos_cast width value ▸ Int.emod_lt_of_pos _ (by positivity)
  exact_mod_cast this

/-- The first formula of R133. -/
theorem toTwos_of_fitsSigned {width : Nat} {value : Int} (hw : 1 ≤ width)
    (hv : FitsSigned value width) :
    (toTwos width value : Int) = if 0 ≤ value then value else value + (2 : Int) ^ width := by
  obtain ⟨hlo, hhi⟩ := hv
  have hpow := two_pow_eq_two_mul_half hw
  rw [toTwos_cast]
  split
  · exact Int.emod_eq_of_lt ‹_› (by omega)
  · rw [← Int.add_emod_right]
    exact Int.emod_eq_of_lt (by omega) (by omega)

/-- The second formula of R133, by the field's top bit. -/
theorem ofTwos_eq {width field : Nat} (hw : 1 ≤ width) (hf : field < 2 ^ width) :
    ofTwos width field =
      if field.testBit (width - 1) then (field : Int) - (2 : Int) ^ width else (field : Int) := by
  simp only [ofTwos, testBit_top_iff hw hf]

theorem ofTwos_fitsSigned {width field : Nat} (hw : 1 ≤ width) (hf : field < 2 ^ width) :
    FitsSigned (ofTwos width field) width := by
  have hpow := two_pow_eq_two_mul_half hw
  have hf' : (field : Int) < (2 : Int) ^ width := by exact_mod_cast hf
  unfold ofTwos FitsSigned
  split
  · have : (2 : Int) ^ (width - 1) ≤ field := by exact_mod_cast ‹2 ^ (width - 1) ≤ field›
    omega
  · have : (field : Int) < 2 ^ (width - 1) := by exact_mod_cast Nat.lt_of_not_le ‹_›
    omega

/-- A field read as signed is negative exactly where its top bit is 1. -/
theorem ofTwos_neg_iff {width field : Nat} (hw : 1 ≤ width) (hf : field < 2 ^ width) :
    ofTwos width field < 0 ↔ field.testBit (width - 1) = true := by
  have hf' : (field : Int) < (2 : Int) ^ width := by exact_mod_cast hf
  rw [ofTwos_eq hw hf]
  split <;> rename_i htop
  · exact iff_of_true (by omega) htop
  · exact iff_of_false (by omega) htop

/-- Reading a field as signed does not change it modulo `2^width`. -/
theorem ofTwos_emod {width field : Nat} (hf : field < 2 ^ width) :
    ofTwos width field % (2 : Int) ^ width = field := by
  have hmod : (field : Int) % (2 : Int) ^ width = field := by
    exact_mod_cast Nat.mod_eq_of_lt hf
  unfold ofTwos
  split
  · rw [Int.sub_emod_right, hmod]
  · exact hmod

theorem toTwos_ofTwos {width field : Nat} (hf : field < 2 ^ width) :
    toTwos width (ofTwos width field) = field := by
  rw [toTwos, ofTwos_emod hf, Int.toNat_natCast]

theorem ofTwos_toTwos {width : Nat} {value : Int} (hw : 1 ≤ width) (hv : FitsSigned value width) :
    ofTwos width (toTwos width value) = value := by
  have hpow := two_pow_eq_two_mul_half hw
  have htwos := toTwos_of_fitsSigned hw hv
  obtain ⟨hlo, hhi⟩ := hv
  have hhalf : 2 ^ (width - 1) ≤ toTwos width value ↔ value < 0 := by
    zify
    rw [htwos]
    split <;> omega
  rcases lt_or_ge value 0 with hneg | hpos
  · rw [ofTwos, if_pos (hhalf.mpr hneg), htwos, if_neg (by omega), add_sub_cancel_right]
  · rw [ofTwos, if_neg (by rw [hhalf]; omega), htwos, if_pos hpos]

/-- The bits of a two's complement of at most 64 bits are the low bits of the 64-bit one. -/
theorem toTwos_testBit {width i : Nat} (hw : width ≤ 64) (hi : i < width) (value : Int) :
    (toTwos width value).testBit i = (BitVec.ofInt 64 value).getLsbD i := by
  have hmod : toTwos width value = toTwos 64 value % 2 ^ width := by
    have : (toTwos width value : Int) = toTwos 64 value % (2 : Int) ^ width := by
      rw [toTwos_cast, toTwos_cast, Int.emod_emod_of_dvd _ (pow_dvd_pow 2 hw)]
    exact_mod_cast this
  rw [hmod, Nat.testBit_mod_two_pow, decide_eq_true hi, Bool.true_and, BitVec.getLsbD,
    BitVec.toNat_ofInt]
  rfl

/-- Settles O16: the two formulas, `toTwos_of_fitsSigned` and `ofTwos_eq`, the two ranges, and
that each map undoes the other. -/
theorem twosComplementMapsAreInverse : Obligations.TwosComplementMapsAreInverse := by
  refine fun width hw => ⟨fun v hlo hhi => ?_, fun f hf => ?_⟩
  · exact ⟨toTwos_of_fitsSigned hw ⟨hlo, hhi⟩, toTwos_lt width v, ofTwos_toTwos hw ⟨hlo, hhi⟩⟩
  · obtain ⟨hlo, hhi⟩ := ofTwos_fitsSigned hw hf
    exact ⟨ofTwos_eq hw hf, hlo, hhi, toTwos_ofTwos hf⟩

end Sys2Proof.Machine
end

section
/-! Proofs about the codec's functions (40_bitfield_codec.md R122 to R130). One equation per branch
of each function; the obligations are read off them. -/

namespace Sys2Proof.Machine

/-- `ValidField` as the obligations write it. -/
theorem validField_iff {width lsb : Nat} :
    ValidField width lsb ↔ 1 ≤ width ∧ width ≤ 64 ∧ width + lsb ≤ 64 := and_assoc

theorem validField_of_le {width lsb : Nat} (hw : 1 ≤ width) (hl : width + lsb ≤ 64) :
    ValidField width lsb := ⟨⟨hw, by omega⟩, hl⟩

section Branches
variable {width lsb : Nat} (word : CWord)

theorem getUnsigned_violation (h : ¬ ValidField width lsb) :
    getUnsigned word width lsb = .contractViolation := if_neg h

theorem getSigned_ok (h : ValidField width lsb) :
    getSigned word width lsb = .ok (ofTwos width (fieldNat word width lsb)) := if_pos h

theorem getSigned_violation (h : ¬ ValidField width lsb) :
    getSigned word width lsb = .contractViolation := if_neg h

theorem setUnsigned_ok (h : ValidField width lsb) {value : CWord} (hfit : value.toNat < 2 ^ width) :
    setUnsigned word width lsb value = .ok (replaceField word width lsb value.toNat) :=
  (if_pos h).trans (if_pos hfit)

theorem setUnsigned_doesNotFit (h : ValidField width lsb) {value : CWord}
    (hfit : ¬ value.toNat < 2 ^ width) : setUnsigned word width lsb value = .doesNotFit :=
  (if_pos h).trans (if_neg hfit)

theorem setUnsigned_violation (h : ¬ ValidField width lsb) (value : CWord) :
    setUnsigned word width lsb value = .contractViolation := if_neg h

theorem setSigned_ok (h : ValidField width lsb) {value : Int} (hfit : FitsSigned value width) :
    setSigned word width lsb value = .ok (replaceField word width lsb (toTwos width value)) :=
  (if_pos h).trans (if_pos hfit)

theorem setSigned_doesNotFit (h : ValidField width lsb) {value : Int}
    (hfit : ¬ FitsSigned value width) : setSigned word width lsb value = .doesNotFit :=
  (if_pos h).trans (if_neg hfit)

theorem setSigned_violation (h : ¬ ValidField width lsb) (value : Int) :
    setSigned word width lsb value = .contractViolation := if_neg h

end Branches

theorem fitsUnsigned_eq_ok_false {value : CWord} {width : Nat} :
    fitsUnsigned value width = .ok false ↔ ValidWidth width ∧ ¬ value.toNat < 2 ^ width := by
  unfold fitsUnsigned
  split
  case isTrue h =>
    rw [CodecOutcome.ok.injEq, decide_eq_false_iff_not]
    exact (and_iff_right h).symm
  case isFalse h => exact iff_of_false nofun fun hfit => h hfit.1

/-- Settles O8: the obligation's range tests are the ones the two functions write. -/
theorem fitsTestsTheRange : Obligations.FitsTestsTheRange :=
  fun _ _ _ => ⟨rfl, rfl⟩

/-- Settles O9: the field as a number loses nothing in 64 bits, and `fieldNat_testBit` gives its
bits. -/
theorem getUnsignedIsTheField : Obligations.GetUnsignedIsTheField := by
  intro word width lsb
  split
  case isTrue h =>
    have hv : ValidField width lsb := validField_iff.mpr h
    have hnat : (BitVec.ofNat 64 (fieldNat word width lsb)).toNat = fieldNat word width lsb :=
      Nat.mod_eq_of_lt (fieldNat_lt_64 word hv)
    exact ⟨_, getUnsigned_ok word hv, hnat, fun i => by
      rw [BitVec.getLsbD, hnat, fieldNat_testBit]⟩
  case isFalse h => exact getUnsigned_violation word (validField_iff.not.mpr h)

/-- Settles O10: the field in two's complement, whose top bit is the word's bit
`lsb + width - 1`. -/
theorem getSignedSignExtends : Obligations.GetSignedSignExtends := by
  intro word width lsb
  split
  case isTrue h =>
    have hw : 1 ≤ width := h.1
    have hf := fieldNat_lt word width lsb
    obtain ⟨hlo, hhi⟩ := ofTwos_fitsSigned hw hf
    have htop : (fieldNat word width lsb).testBit (width - 1) =
        word.getLsbD (lsb + width - 1) := by
      rw [fieldNat_testBit, decide_eq_true (by omega), Bool.true_and, Nat.add_sub_assoc hw]
    exact ⟨_, getSigned_ok word (validField_iff.mpr h), hlo, hhi, ofTwos_emod hf,
      htop ▸ ofTwos_neg_iff hw hf⟩
  case isFalse h => exact getSigned_violation word (validField_iff.not.mpr h)

/-- Settles O11: each branch of `set_unsigned`, with the bits by `replaceField_getLsbD`. -/
theorem setUnsignedReplacesTheField : Obligations.SetUnsignedReplacesTheField := by
  intro word value width lsb
  split
  case isFalse h => exact setUnsigned_violation word (validField_iff.not.mpr h) value
  case isTrue h =>
    have hv : ValidField width lsb := validField_iff.mpr h
    split
    case isFalse hfit => exact setUnsigned_doesNotFit word hv hfit
    case isTrue hfit =>
      refine ⟨_, setUnsigned_ok word hv hfit, fun i hi => ?_⟩
      rw [replaceField_getLsbD word hfit, decide_eq_true hi, Bool.true_and]
      rfl

/-- Settles O12: each branch of `set_signed`; inside the field the stored bits are those of the
two's complement, by `toTwos_testBit`. -/
theorem setSignedStoresTwosComplement : Obligations.SetSignedStoresTwosComplement := by
  intro word value width lsb
  split
  case isFalse h => exact setSigned_violation word (validField_iff.not.mpr h) value
  case isTrue h =>
    have hv : ValidField width lsb := validField_iff.mpr h
    split
    case isFalse hfit => exact setSigned_doesNotFit word hv hfit
    case isTrue hfit =>
      refine ⟨_, setSigned_ok word hv hfit, fun i hi => ?_⟩
      rw [replaceField_getLsbD word (toTwos_lt width value), decide_eq_true hi, Bool.true_and]
      split
      · exact toTwos_testBit h.2.1 (by omega) value
      · rfl

/-- Settles O13: a field reads back as what was put into it (`fieldNat_replaceField`), and for the
signed pair the two maps of two's complement are inverse. -/
theorem codecRoundTrips : Obligations.CodecRoundTrips := by
  refine ⟨fun word value width lsb hw hl hfit => ?_, fun word value width lsb hw hl hlo hhi => ?_,
    fun word value width lsb hw hl hfit => ?_⟩
  · have hv := validField_of_le hw hl
    refine ⟨_, setUnsigned_ok word hv hfit, ?_⟩
    rw [getUnsigned_ok _ hv, fieldNat_replaceField word hv hfit, BitVec.ofNat_toNat,
      BitVec.setWidth_eq]
  · have hv := validField_of_le hw hl
    refine ⟨_, setSigned_ok word hv ⟨hlo, hhi⟩, ?_⟩
    rw [getSigned_ok _ hv, fieldNat_replaceField word hv (toTwos_lt width value),
      ofTwos_toTwos hw ⟨hlo, hhi⟩]
  · exact setUnsigned_doesNotFit word (validField_of_le hw hl) (fitsUnsigned_eq_ok_false.mp hfit).2

end Sys2Proof.Machine
end

section
/-! Proofs about the data operations (42_data_ops.md). The frame of a register write is proved once;
each operation is then an equation for its dispatch and an equation for the word it writes. -/

namespace Sys2Proof.Machine

/-! ## The frame of a register write -/

theorem SameStore.of_store_eq {s t : State} (h : t.store = s.store) : SameStore s t where
  word id off := by rw [h]
  length id := by rw [h]
  pool := by rw [h]
  nextId := by rw [h]

theorem OnlyRegister.refl (r : RegIdx) (s : State) : OnlyRegister r s s where
  registers _ _ := rfl
  pc := rfl
  memory := .of_store_eq rfl
  outside := ⟨rfl, rfl, rfl, rfl⟩

theorem OnlyRegister.setReg (s : State) (r : RegIdx) (v : Word) :
    OnlyRegister r s (s.setReg r v) where
  registers _ hj := State.reg_setReg_ne s v hj
  pc := State.setReg_pc s r v
  memory := .of_store_eq (State.setReg_store s r v)
  outside := ⟨State.setReg_status s r v, State.setReg_out s r v, State.setReg_input s r v,
    State.setReg_config s r v⟩

/-! ## The words the operations write -/

theorem isNonZero_iff {v : Word} : isNonZero v = true ↔ v ≠ 0#32 := bne_iff_ne

@[simp] theorem wordAdd_toNat (u v : Word) :
    (wordAdd u v).toNat = (u.toNat + v.toNat) % 2 ^ 32 := by
  rw [wordAdd, BitVec.toNat_ofNat, Nat.mod_mod]

@[simp] theorem wordMul_toNat (u v : Word) : (wordMul u v).toNat = u.toNat * v.toNat % 2 ^ 32 := by
  rw [wordMul, BitVec.toNat_ofNat, Nat.mod_mod]

theorem wordNand_getLsbD (u v : Word) {i : Nat} (hi : i < 32) :
    (wordNand u v).getLsbD i = !(u.getLsbD i && v.getLsbD i) := by
  simp [wordNand, hi]

/-- Every immediate fits the word, so the widening keeps its number (30_encoding.md R97). -/
@[simp] theorem immediate_toNat (imm : Imm) : (immediate imm).toNat = imm.toNat :=
  BitVec.toNat_setWidth_of_le (by decide)

/-! ## The dispatch -/

section Dispatch
variable (a b c : RegIdx) (s : State)

theorem exec_cmov_of_ne_zero (h : s.reg c ≠ 0#32) :
    exec (.cmov a b c) s = .next (s.setReg a (s.reg b)) :=
  congrArg Host.Outcome.next (if_pos (isNonZero_iff.mpr h))

theorem exec_cmov_of_eq_zero (h : s.reg c = 0#32) : exec (.cmov a b c) s = .next s :=
  congrArg Host.Outcome.next (if_neg fun hn => isNonZero_iff.mp hn h)

theorem exec_add : exec (.add a b c) s = .next (s.setReg a (wordAdd (s.reg b) (s.reg c))) := rfl

theorem exec_mul : exec (.mul a b c) s = .next (s.setReg a (wordMul (s.reg b) (s.reg c))) := rfl

theorem exec_nand : exec (.nand a b c) s = .next (s.setReg a (wordNand (s.reg b) (s.reg c))) := rfl

theorem exec_loadv (imm : Imm) : exec (.loadv a imm) s = .next (s.setReg a (immediate imm)) := rfl

end Dispatch

/-! ## The obligations -/

/-- Settles O22: with `x[c] = 0` the next state is the old one, otherwise register `a` alone is
written. -/
theorem cmovMovesOnNonZero : Obligations.CmovMovesOnNonZero := by
  intro a b c s
  by_cases h : s.reg c = 0#32
  · exact ⟨s, exec_cmov_of_eq_zero a b c s h, (if_neg (not_not_intro h)).symm, .refl a s⟩
  · refine ⟨_, exec_cmov_of_ne_zero a b c s h, ?_, .setReg s a _⟩
    rw [State.reg_setReg_same, if_pos h]

/-- Settles O23: `wordAdd` is the sum modulo 2^32, and only register `a` is written. -/
theorem addWritesSumModuloWord : Obligations.AddWritesSumModuloWord := by
  intro a b c s
  refine ⟨_, exec_add a b c s, ?_, .setReg s a _⟩
  rw [State.reg_setReg_same, wordAdd_toNat]

/-- Settles O24: `wordMul` is the product modulo 2^32, and only register `a` is written. -/
theorem mulWritesProductModuloWord : Obligations.MulWritesProductModuloWord := by
  intro a b c s
  refine ⟨_, exec_mul a b c s, ?_, .setReg s a _⟩
  rw [State.reg_setReg_same, wordMul_toNat]

/-- Settles O26: `wordNand` complements the conjunction at each of the 32 bits, and only register
`a` is written. -/
theorem nandComplementsConjunction : Obligations.NandComplementsConjunction := by
  intro a b c s
  refine ⟨_, exec_nand a b c s, fun i hi => ?_, .setReg s a _⟩
  rw [State.reg_setReg_same, wordNand_getLsbD _ _ hi]

/-- Settles O27: widening the immediate keeps its number, and only register `a` is written. -/
theorem loadvWritesZeroExtendedImmediate : Obligations.LoadvWritesZeroExtendedImmediate := by
  intro a imm s
  refine ⟨_, exec_loadv a s imm, ?_, .setReg s a _⟩
  rw [State.reg_setReg_same, immediate_toNat]

end Sys2Proof.Machine
end

section
/-! Proofs about the control operations (44_control_ops.md). -/

namespace Sys2Proof.Machine

/-- The frame of a change of status alone: HALT's effect and a fault's. -/
theorem OnlyStatus.setStatus (s : State) (r : RunStatus) : OnlyStatus s (s.setStatus r) where
  registers := State.setStatus_reg s r
  pc := State.setStatus_pc s r
  memory := .of_store_eq (State.setStatus_store s r)
  out := State.setStatus_out s r
  input := State.setStatus_input s r
  config := State.setStatus_config s r

theorem exec_halt (a b c : RegIdx) (s : State) :
    exec (.halt a b c) s = .next (s.setStatus .halted) := rfl

/-- Settles O35: HALT sets the status alone, and a step starts only from `Running`
(`running_of_step`). -/
theorem haltStopsTheEngine : Obligations.HaltStopsTheEngine := by
  intro a b c s
  have hstatus : (s.setStatus .halted).status = .halted := State.setStatus_status s .halted
  refine ⟨_, exec_halt a b c s, hstatus, .setStatus s .halted, fun u hu => ?_⟩
  have hrunning : (s.setStatus .halted).status = .running := running_of_step hu
  exact nomatch hstatus.symm.trans hrunning

end Sys2Proof.Machine
end

section
/-! Proofs about the encodings (30_encoding.md). The slices of an encoded word, the branches of the
decoder, and the codec calls that build a word from zero. -/

namespace Sys2Proof

/-! ## The three-register opcodes -/

/-- What the opcode table's three-register part gives: an instruction with that opcode, with the
three fields, whose encoding is the three-register form. -/
theorem threeRegister_eq_some {op : Nat} {a b c : RegIdx} {i : Instr}
    (h : threeRegister op a b c = some i) :
    op ≤ 12 ∧ i.opcode = op ∧ i.WellFormed ∧ encode i = encodeThree op a b c ∧
      ∀ w, Machine.FieldsOf w i ↔
        a = w.extractLsb' 6 3 ∧ b = w.extractLsb' 3 3 ∧ c = w.extractLsb' 0 3 := by
  unfold threeRegister at h
  split at h <;> cases h <;> exact ⟨by decide, rfl, rfl, rfl, fun _ => Iff.rfl⟩

/-- The table has a row for every opcode up to 12. -/
theorem threeRegister_of_le {op : Nat} (h : op ≤ 12) (a b c : RegIdx) :
    ∃ i, threeRegister op a b c = some i := by
  interval_cases op <;> exact ⟨_, rfl⟩

theorem threeRegister_eq_none {op : Nat} (h : 13 ≤ op) (a b c : RegIdx) :
    threeRegister op a b c = none := by
  cases hi : threeRegister op a b c with
  | none => rfl
  | some i => have := (threeRegister_eq_some hi).1; omega

/-! ## The branches of the decoder -/

section Branches
variable {w : Word}

theorem decode_of_threeRegister {i : Instr}
    (h : threeRegister (w.extractLsb' 28 4).toNat (w.extractLsb' 6 3) (w.extractLsb' 3 3)
      (w.extractLsb' 0 3) = some i) : decode w = .ok i := by
  rw [decode_eq, h]

theorem decode_of_opcode_eq_13 (h : (w.extractLsb' 28 4).toNat = 13) :
    decode w = .ok (.loadv (w.extractLsb' 25 3) (w.extractLsb' 0 25)) := by
  rw [decode_eq, threeRegister_eq_none (by omega)]
  exact congrArg Except.ok (if_pos h)

theorem decode_of_opcode_eq_14 (h : (w.extractLsb' 28 4).toNat = 14) :
    decode w = .ok (.unrec14 w) := by
  rw [decode_eq, threeRegister_eq_none (by omega)]
  exact congrArg Except.ok ((if_neg (by omega)).trans (if_pos h))

theorem decode_of_opcode_eq_15 (h : (w.extractLsb' 28 4).toNat = 15) :
    decode w = .ok (.unrec15 w) := by
  rw [decode_eq, threeRegister_eq_none (by omega)]
  exact congrArg Except.ok ((if_neg (by omega)).trans (if_neg (by omega)))

end Branches

/-- Every word takes one of the decoder's four branches (30_encoding.md R95). -/
theorem decode_cases (w : Word) :
    (∃ i, threeRegister (w.extractLsb' 28 4).toNat (w.extractLsb' 6 3) (w.extractLsb' 3 3)
        (w.extractLsb' 0 3) = some i ∧ decode w = .ok i) ∨
      ((w.extractLsb' 28 4).toNat = 13 ∧
        decode w = .ok (.loadv (w.extractLsb' 25 3) (w.extractLsb' 0 25))) ∨
      ((w.extractLsb' 28 4).toNat = 14 ∧ decode w = .ok (.unrec14 w)) ∨
      ((w.extractLsb' 28 4).toNat = 15 ∧ decode w = .ok (.unrec15 w)) := by
  have hlt := (w.extractLsb' 28 4).isLt
  obtain h | h | h | h : (w.extractLsb' 28 4).toNat ≤ 12 ∨ (w.extractLsb' 28 4).toNat = 13 ∨
      (w.extractLsb' 28 4).toNat = 14 ∨ (w.extractLsb' 28 4).toNat = 15 := by omega
  · obtain ⟨i, hi⟩ := threeRegister_of_le h (w.extractLsb' 6 3) (w.extractLsb' 3 3)
      (w.extractLsb' 0 3)
    exact .inl ⟨i, hi, decode_of_threeRegister hi⟩
  · exact .inr (.inl ⟨h, decode_of_opcode_eq_13 h⟩)
  · exact .inr (.inr (.inl ⟨h, decode_of_opcode_eq_14 h⟩))
  · exact .inr (.inr (.inr ⟨h, decode_of_opcode_eq_15 h⟩))

/-! ## The slices of an encoded word -/

/-- A slice as a number. -/
theorem slice_toNat (w : Word) (lsb width : Nat) :
    (w.extractLsb' lsb width).toNat = w.toNat / 2 ^ lsb % 2 ^ width := by
  rw [BitVec.extractLsb'_toNat, Nat.shiftRight_eq_div_pow]

theorem encodeThree_toNat {op : Nat} (h : op < 16) (a b c : RegIdx) :
    (encodeThree op a b c).toNat = op * 2 ^ 28 + a.toNat * 64 + b.toNat * 8 + c.toNat := by
  rw [encodeThree, BitVec.toNat_ofNat]; omega

theorem encodeThree_a {op : Nat} (h : op < 16) (a b c : RegIdx) :
    (encodeThree op a b c).extractLsb' 6 3 = a := by
  apply BitVec.eq_of_toNat_eq; rw [slice_toNat, encodeThree_toNat h]; omega

theorem encodeThree_b {op : Nat} (h : op < 16) (a b c : RegIdx) :
    (encodeThree op a b c).extractLsb' 3 3 = b := by
  apply BitVec.eq_of_toNat_eq; rw [slice_toNat, encodeThree_toNat h]; omega

theorem encodeThree_c {op : Nat} (h : op < 16) (a b c : RegIdx) :
    (encodeThree op a b c).extractLsb' 0 3 = c := by
  apply BitVec.eq_of_toNat_eq; rw [slice_toNat, encodeThree_toNat h]; omega

theorem encode_loadv_toNat (a : RegIdx) (imm : Imm) :
    (encode (.loadv a imm)).toNat = 13 * 2 ^ 28 + a.toNat * 2 ^ 25 + imm.toNat := by
  rw [encode, BitVec.toNat_ofNat]; omega

theorem encode_loadv_a (a : RegIdx) (imm : Imm) :
    (encode (.loadv a imm)).extractLsb' 25 3 = a := by
  apply BitVec.eq_of_toNat_eq; rw [slice_toNat, encode_loadv_toNat]; omega

theorem encode_loadv_imm (a : RegIdx) (imm : Imm) :
    (encode (.loadv a imm)).extractLsb' 0 25 = imm := by
  apply BitVec.eq_of_toNat_eq; rw [slice_toNat, encode_loadv_toNat]; omega

/-- The other way round: a word with bits [27:9] clear is the encoding of its slices. -/
theorem encodeThree_slices {w : Word} (h : w.extractLsb' 9 19 = 0#19) :
    encodeThree (w.extractLsb' 28 4).toNat (w.extractLsb' 6 3) (w.extractLsb' 3 3)
      (w.extractLsb' 0 3) = w := by
  apply BitVec.eq_of_toNat_eq
  have hclear := congrArg BitVec.toNat h
  rw [encodeThree_toNat (w.extractLsb' 28 4).isLt]
  simp only [slice_toNat, BitVec.toNat_ofNat] at hclear ⊢
  omega

theorem encode_loadv_slices {w : Word} (h : (w.extractLsb' 28 4).toNat = 13) :
    encode (.loadv (w.extractLsb' 25 3) (w.extractLsb' 0 25)) = w := by
  apply BitVec.eq_of_toNat_eq
  rw [encode_loadv_toNat]
  simp only [slice_toNat] at h ⊢
  omega

/-- The encoding of a word's slices is the word with bits [27:9] cleared. -/
theorem encodeThree_slices_eq_and (w : Word) :
    encodeThree (w.extractLsb' 28 4).toNat (w.extractLsb' 6 3) (w.extractLsb' 3 3)
      (w.extractLsb' 0 3) = w &&& 0xF00001FF#32 := by
  have slice_kept (lsb width : Nat)
      (h : (0xF00001FF#32).extractLsb' lsb width = BitVec.allOnes width) :
      (w &&& 0xF00001FF#32).extractLsb' lsb width = w.extractLsb' lsb width := by
    rw [BitVec.extractLsb'_and, h, BitVec.and_allOnes]
  have hclear : (w &&& 0xF00001FF#32).extractLsb' 9 19 = 0#19 := by
    rw [BitVec.extractLsb'_and]
    exact BitVec.and_zero
  rw [← slice_kept 28 4 (by decide), ← slice_kept 6 3 (by decide), ← slice_kept 3 3 (by decide),
    ← slice_kept 0 3 (by decide)]
  exact encodeThree_slices hclear

theorem decode_encodeThree {op : Nat} {a b c : RegIdx} {i : Instr}
    (h : threeRegister op a b c = some i) : decode (encodeThree op a b c) = .ok i := by
  have hop : op < 16 := by have := (threeRegister_eq_some h).1; omega
  apply decode_of_threeRegister
  rw [encodeThree_opcode op hop, encodeThree_a hop, encodeThree_b hop, encodeThree_c hop, h]

/-! ## The obligations -/

/-- Settles O3: a three-register word has the table's row back by `decode_encodeThree`; the other
three formats by the decoder's branch for their opcode. -/
theorem decodeAfterEncodeIsIdentity : Obligations.DecodeAfterEncodeIsIdentity := by
  intro i hwf
  cases i with
  | loadv a imm =>
    rw [decode_of_opcode_eq_13 (Laws.OpcodeField.loadv a imm hwf), encode_loadv_a,
      encode_loadv_imm]
  | unrec14 raw => exact decode_of_opcode_eq_14 (Laws.OpcodeField.unrec14 raw hwf)
  | unrec15 raw => exact decode_of_opcode_eq_15 (Laws.OpcodeField.unrec15 raw hwf)
  | cmov | sload | sstore | add | mul | div | nand | halt | map | unmap | out | inp | loadp =>
    exact decode_encodeThree rfl

/-- Settles O2: the four branches of the decoder. -/
theorem everyWordDecodesByItsFields : Obligations.EveryWordDecodesByItsFields := by
  intro w
  obtain ⟨i, hi, hd⟩ | ⟨h, hd⟩ | ⟨h, hd⟩ | ⟨h, hd⟩ := decode_cases w
  · obtain ⟨-, hop, hwf, -, hfields⟩ := threeRegister_eq_some hi
    exact ⟨i, hd, hwf, hop, (hfields w).mpr ⟨rfl, rfl, rfl⟩⟩
  · exact ⟨_, hd, rfl, h.symm, rfl, rfl⟩
  · exact ⟨_, hd, beq_iff_eq.mpr (BitVec.eq_of_toNat_eq h), h.symm, rfl⟩
  · exact ⟨_, hd, beq_iff_eq.mpr (BitVec.eq_of_toNat_eq h), h.symm, rfl⟩

/-- Settles O4: in each branch of the decoder, the encoding of the word's slices. -/
theorem encodeAfterDecodeClearsUnusedBits : Obligations.EncodeAfterDecodeClearsUnusedBits := by
  intro w i hi
  obtain ⟨j, hj, hd⟩ | ⟨h, hd⟩ | ⟨h, hd⟩ | ⟨h, hd⟩ := decode_cases w <;>
    cases hi.symm.trans hd
  · obtain ⟨hle, -, -, henc, -⟩ := threeRegister_eq_some hj
    rw [if_pos hle, henc, encodeThree_slices_eq_and]
  · rw [if_neg (by omega), encode_loadv_slices h]
  · exact (if_neg (by omega)).symm
  · exact (if_neg (by omega)).symm

/-- Settles O5: the slices that the decoder reads of a three-register word lie in the opcode and in
bits [8:0]. -/
theorem unusedBitsAreNotDecoded : Obligations.UnusedBitsAreNotDecoded := by
  intro w v hle hop hlow
  have hlow' := congrArg BitVec.toNat hlow
  simp only [slice_toNat] at hlow'
  have ha : w.extractLsb' 6 3 = v.extractLsb' 6 3 := by
    apply BitVec.eq_of_toNat_eq; simp only [slice_toNat]; omega
  have hb : w.extractLsb' 3 3 = v.extractLsb' 3 3 := by
    apply BitVec.eq_of_toNat_eq; simp only [slice_toNat]; omega
  have hc : w.extractLsb' 0 3 = v.extractLsb' 0 3 := by
    apply BitVec.eq_of_toNat_eq; simp only [slice_toNat]; omega
  obtain ⟨i, hi⟩ := threeRegister_of_le hle (w.extractLsb' 6 3) (w.extractLsb' 3 3)
    (w.extractLsb' 0 3)
  rw [decode_of_threeRegister hi]
  rw [hop, ha, hb, hc] at hi
  exact (decode_of_threeRegister hi).symm

/-- Settles O1: the decoder run on each of the sixteen words. -/
theorem decodeReadsSpecWords : Obligations.DecodeReadsSpecWords := by
  refine ⟨?_, ?_, ?_, ?_, ?_, ?_, ?_, ?_, ?_, ?_, ?_, ?_, ?_, ?_, ?_, ?_⟩ <;> decide

end Sys2Proof
end

section
/-! More laws of the segment store (20_memory.md R54 to R59): what is read after each operation that
succeeds. -/

namespace Sys2Proof.Machine

@[simp] theorem Segment.zeros_words (n : Nat) :
    (Segment.zeros n).words = List.replicate n 0#32 :=
  Segment.words_ext (by simp) fun i hi => by
    rw [Segment.zeros_len] at hi
    simp [hi]

@[simp] theorem Segment.ofWords_words (ws : List Word) : (Segment.ofWords ws).words = ws :=
  Segment.words_ext rfl fun i _ => Segment.ofWords_get ws i

@[simp] theorem Store.setSegment_segment_same (st : Store) (id : SegId) (g : Segment) :
    (st.setSegment id g).segment id = some g := by
  rw [Store.segment_setSegment, if_pos rfl]

theorem Store.setSegment_segment_ne (st : Store) {id id' : SegId} (g : Segment) (h : id' ≠ id) :
    (st.setSegment id g).segment id' = st.segment id' := by
  rw [Store.segment_setSegment, if_neg h]

theorem Store.word_of_segment {st : Store} {id : SegId} {g : Segment} {off : Word}
    (h : st.segment id = some g) :
    st.word id off = if off.toNat < g.len then some (g.get off.toNat) else none := by
  rw [Store.word, h]

/-- The words of the store after one word of a segment is set (20_memory.md R56). -/
theorem Store.word_setSegment_set {st : Store} {id : SegId} {g : Segment} {off : Word}
    (hs : st.segment id = some g) (hoff : off.toNat < g.len) (v : Word) (id' : SegId)
    (off' : Word) :
    (st.setSegment id (g.set off.toNat v)).word id' off' =
      if (id', off') = (id, off) then some v else st.word id' off' := by
  by_cases hid : id' = id
  · subst hid
    rw [word_of_segment (st.setSegment_segment_same id' _), word_of_segment hs, Segment.set_len,
      Segment.get_set]
    by_cases ho : off' = off
    · subst ho; rw [if_pos hoff, if_pos rfl, if_pos rfl]
    · rw [if_neg fun e => ho (BitVec.eq_of_toNat_eq e), if_neg fun e => ho (congrArg Prod.snd e)]
  · rw [if_neg fun e => hid (congrArg Prod.fst e), Store.word, st.setSegment_segment_ne _ hid]
    rfl

/-- Setting one word of a segment leaves every length as it was (20_memory.md R62). -/
theorem Store.length_setSegment_set {st : Store} {id : SegId} {g : Segment}
    (hs : st.segment id = some g) (off : Nat) (v : Word) (id' : SegId) :
    ((st.setSegment id (g.set off v)).segment id').map Segment.len =
      (st.segment id').map Segment.len := by
  by_cases hid : id' = id
  · subst hid; rw [st.setSegment_segment_same, hs]; simp
  · rw [st.setSegment_segment_ne _ hid]

/-- What an allocation that succeeds gives (20_memory.md R57): the top of the pool, or else
`next_id`, as a segment of zeros. -/
theorem Store.allocate_eq_ok {st st' : Store} {cfg : Config} {n : Word} {id : SegId}
    (h : st.allocate cfg n = .ok (id, st')) :
    id = st.pool.headD (BitVec.ofNat 32 st.nextId) ∧
      (∀ id', st'.segment id' =
        if id' = id then some (Segment.zeros n.toNat) else st.segment id') ∧
      st'.pool = st.pool.tail ∧
      st'.nextId = if st.pool = [] then st.nextId + 1 else st.nextId := by
  obtain ⟨top, rest, -, hp, he⟩ | ⟨-, hp, hlt, he⟩ | ⟨-, he⟩ := st.allocate_cases cfg n <;>
    cases he.symm.trans h <;> rw [hp]
  · exact ⟨rfl, fun id' => st.segment_setSegment id id' _, rfl, rfl⟩
  · refine ⟨rfl, fun id' => ?_, rfl, rfl⟩
    have hid : (BitVec.ofNat 32 st.nextId).toNat = st.nextId := Nat.mod_eq_of_lt hlt
    have := st.segment_setSegment (BitVec.ofNat 32 st.nextId) id' (Segment.zeros n.toNat)
    rwa [Store.setSegment, hid] at this

/-- 20_memory.md R70: in a store that meets the invariants, the identifier is neither 0 nor
mapped. -/
theorem Store.Inv.allocate_unmapped {st st' : Store} {cfg : Config} {n : Word} {id : SegId}
    (hinv : st.Inv) (h : st.allocate cfg n = .ok (id, st')) :
    id ≠ 0#32 ∧ st.segment id = none := by
  obtain ⟨top, rest, -, hp, he⟩ | ⟨-, -, hlt, he⟩ | ⟨-, he⟩ := st.allocate_cases cfg n <;>
    cases he.symm.trans h
  · exact hinv.pool_unmapped (hp ▸ List.mem_cons_self)
  · have hid : (BitVec.ofNat 32 st.nextId).toNat = st.nextId := Nat.mod_eq_of_lt hlt
    refine ⟨fun e => ?_, ?_⟩
    · have hzero : st.nextId = 0 := hid.symm.trans (congrArg BitVec.toNat e)
      have := hinv.nextPos
      omega
    · cases hs : st.segment (BitVec.ofNat 32 st.nextId) with
      | none => rfl
      | some g => exact absurd (hinv.lt_nextId hs) (by omega)

/-- What a free that succeeds gives (20_memory.md R58). -/
theorem Store.free_eq_ok {st st' : Store} {id : SegId} (h : st.free id = .ok st') :
    (∀ id', st'.segment id' = if id' = id then none else st.segment id') ∧
      st'.pool = id :: st.pool ∧ st'.nextId = st.nextId := by
  obtain ⟨-, -, he⟩ | ⟨-, he⟩ | ⟨-, -, he⟩ := st.free_cases id <;> cases he.symm.trans h
  refine ⟨fun id' => ?_, rfl, rfl⟩
  simp only [Store.segment, Assoc.find_erase, BitVec.toNat_inj]

/-! ## The canonical form -/

/-- In canonical form, the listed words are the non-zero ones below the length. -/
theorem Segment.mem_cells_iff {g : Segment} (hg : g.wf) (e : Nat × Word) :
    e ∈ g.cells ↔ e.1 < g.len ∧ g.get e.1 = e.2 ∧ e.2 ≠ 0#32 := by
  obtain ⟨-, hrise, hcells⟩ := hg
  constructor
  · intro he
    obtain ⟨hlt, hne⟩ := hcells e he
    exact ⟨hlt, by rw [Segment.get, Assoc.find_of_mem hrise he]; rfl, hne⟩
  · rintro ⟨-, hget, hne⟩
    cases hf : Assoc.find e.1 g.cells with
    | none =>
      rw [Segment.get, hf] at hget
      exact absurd hget.symm hne
    | some v =>
      rw [Segment.get, hf] at hget
      obtain rfl : v = e.2 := hget
      exact Assoc.mem_of_find hf

theorem Segment.words_getElem? (g : Segment) {i : Nat} (h : i < g.len) :
    g.words[i]? = some (g.get i) := by
  rw [List.getElem?_eq_getElem (by simpa using h), Segment.words_getElem]

end Sys2Proof.Machine
end

section
/-! Proofs about the segment operations and the store (43_segment_ops.md, 20_memory.md). -/

namespace Sys2Proof.Machine

/-- The frame of a change of the store alone. -/
theorem OnlyStore.setStore (s : State) (st : Store) : OnlyStore s (s.setStore st) where
  registers := State.setStore_reg s st
  pc := State.setStore_pc s st
  outside := ⟨State.setStore_status s st, State.setStore_out s st, State.setStore_input s st,
    State.setStore_config s st⟩

section Dispatch
variable (a b c : RegIdx) (s : State)

theorem exec_sload : exec (.sload a b c) s = execSload a b c s := rfl

theorem exec_sstore : exec (.sstore a b c) s = execSstore a b c s := rfl

theorem exec_map : exec (.map a b c) s = execMap b c s := rfl

theorem exec_unmap : exec (.unmap a b c) s = execUnmap c s := rfl

end Dispatch

/-- Settles O28: the three cases of SLOAD. -/
theorem sloadReadsWordOrFaults : Obligations.SloadReadsWordOrFaults := by
  intro a b c s
  rw [exec_sload]
  obtain ⟨g, hs, hoff, he⟩ | ⟨hs, he⟩ | ⟨g, hs, hoff, he⟩ := execSload_cases a b c s <;> rw [hs]
  · simp only [if_pos hoff]
    refine ⟨_, he, ?_, .setReg s a _⟩
    rw [State.reg_setReg_same, Store.word_of_segment hs, if_pos hoff]
  · exact he
  · simp only [if_neg (Nat.not_lt.mpr hoff)]
    exact he

/-- Settles O29: the three cases of SSTORE; the words and lengths afterwards are
`word_setSegment_set` and `length_setSegment_set`. -/
theorem sstoreWritesOneWordOrFaults : Obligations.SstoreWritesOneWordOrFaults := by
  intro a b c s id off haddr
  obtain ⟨rfl, rfl⟩ := Prod.mk.inj haddr
  rw [exec_sstore]
  obtain ⟨g, hs, hoff, he⟩ | ⟨hs, he⟩ | ⟨g, hs, hoff, he⟩ := execSstore_cases a b c s <;> rw [hs]
  · simp only [if_pos hoff]
    have hword := Store.word_setSegment_set hs hoff (s.reg c)
    exact ⟨_, he, (hword _ _).trans (if_pos rfl),
      fun id' off' hne => (hword _ _).trans (if_neg hne),
      Store.length_setSegment_set hs _ _, rfl, rfl, .setStore s _⟩
  · exact he
  · simp only [if_neg (Nat.not_lt.mpr hoff)]
    exact he

/-- Settles O30: the two cases of MAP; the store afterwards is that of `allocate`. -/
theorem mapAllocatesZeroSegmentOrFaults : Obligations.MapAllocatesZeroSegmentOrFaults := by
  intro a b c s
  rw [exec_map]
  obtain ⟨id, st, hst, hfree, he⟩ | ⟨hfull, he⟩ := execMap_cases b c s
  · rw [if_neg hfree]
    obtain ⟨htop, hseg, hpool, hnext⟩ := Store.allocate_eq_ok hst
    have hid : ((s.setStore st).setReg b id).reg b = id := State.reg_setReg_same _ _ _
    refine ⟨_, he, hid.trans htop, ?_, fun id' hne => ?_, hpool, hnext,
      fun j hj => State.reg_setReg_ne _ _ hj, rfl, rfl, rfl, rfl, rfl⟩
    · rw [hid, State.setReg_store, State.setStore_store, Store.words, hseg, if_pos rfl,
        Option.map_some, Segment.zeros_words]
    · rw [hid] at hne
      rw [State.setReg_store, State.setStore_store, hseg, if_neg hne]
  · rw [if_pos hfull]
    exact he

/-- Settles O31: the three cases of UNMAP; the store afterwards is that of `free`. -/
theorem unmapFreesIdentifierOrFaults : Obligations.UnmapFreesIdentifierOrFaults := by
  intro a b c s
  rw [exec_unmap]
  obtain ⟨st, hne, hsome, hst, he⟩ | ⟨hzero, he⟩ | ⟨hne, hnone, he⟩ := execUnmap_cases c s
  · rw [if_neg hne, if_neg (Option.isSome_iff_ne_none.mp hsome)]
    obtain ⟨hseg, hpool, hnext⟩ := Store.free_eq_ok hst
    exact ⟨_, he, (hseg _).trans (if_pos rfl), fun id hid => (hseg id).trans (if_neg hid), hpool,
      hnext, .setStore s st⟩
  · rw [if_pos hzero]
    exact he
  · rw [if_neg hne, if_pos hnone]
    exact he

/-- Settles O32: the invariants of the store exclude 0 and the mapped identifiers from the pool and
from `next_id` up. -/
theorem allocateNeverReturnsLiveIdentifier : Obligations.AllocateNeverReturnsLiveIdentifier :=
  fun _ _ _ _ _ hinv h => hinv.allocate_unmapped h

/-- Settles O33: UNMAP by its obligation leaves `x[c]` on top of the pool, and MAP by its own takes
it from there. -/
theorem mapAfterUnmapReusesIdentifier : Obligations.MapAfterUnmapReusesIdentifier := by
  intro a b c a' b' c' s hcap hne hmapped
  have hunmap := unmapFreesIdentifierOrFaults a b c s
  rw [if_neg hne, if_neg hmapped] at hunmap
  obtain ⟨t, ht, -, -, hpool, -, honly⟩ := hunmap
  have hallows : t.store.capacityAllows t.config (t.reg c').toNat = true := by
    rw [Store.capacityAllows, honly.outside.config, hcap]
  have hmap := mapAllocatesZeroSegmentOrFaults a' b' c' t
  rw [if_neg (by simp [hallows, hpool])] at hmap
  obtain ⟨u, hu, hreg, hwords, -, hpool', -⟩ := hmap
  rw [hpool, List.headD_cons] at hreg
  rw [hreg, honly.registers] at hwords
  exact ⟨t, u, ht, hu, hreg, hwords, by rw [hpool', hpool, List.tail_cons]⟩

/-- Settles O34: the length is that of the sequence, and the listed words are its non-zero ones, in
the one order that rises (`mem_cells_iff`). -/
theorem canonicalSegmentsAreDetermined : Obligations.CanonicalSegmentsAreDetermined := by
  intro g h hg hh hwords
  have hlen : g.len = h.len := by
    rw [← g.words_length, hwords, h.words_length]
  have hget : ∀ i, i < g.len → g.get i = h.get i := fun i hi => by
    have := congrArg (·[i]?) hwords
    simpa only [g.words_getElem? hi, h.words_getElem? (hlen ▸ hi), Option.some.injEq] using this
  have hmem : ∀ e, e ∈ g.cells ↔ e ∈ h.cells := fun e => by
    rw [Segment.mem_cells_iff hg, Segment.mem_cells_iff hh, ← hlen]
    exact and_congr_right fun hi => by rw [hget _ hi]
  have : Std.Antisymm fun x y : Nat × Word => x.1 < y.1 := ⟨fun _ _ hxy hyx => by omega⟩
  have : Std.Irrefl fun x y : Nat × Word => x.1 < y.1 := ⟨fun _ => Nat.lt_irrefl _⟩
  obtain ⟨-, hgrise, -⟩ := hg
  obtain ⟨-, hhrise, -⟩ := hh
  have hcells : g.cells = h.cells := hgrise.eq_of_mem_iff hhrise hmem
  cases g; cases h
  exact congrArg₂ Segment.mk hlen hcells

/-- Settles O57: SSTORE by its obligation sets the word at `(0, pc)`, which is what the fetch
reads. -/
theorem storeIntoProgramIsFetchedNext : Obligations.StoreIntoProgramIsFetchedNext := by
  intro a b c s g ha hb hs hpc
  have hstore := sstoreWritesOneWordOrFaults a b c s 0#32 s.pc (by rw [storeAddress, ha, hb])
  rw [hs] at hstore
  simp only [if_pos hpc] at hstore
  obtain ⟨t, ht, hword, -, -, -, -, honly⟩ := hstore
  exact ⟨t, ht, State.fetch_eq_ok.mpr (honly.pc ▸ hword)⟩

end Sys2Proof.Machine
end

section
/-! Proofs about the other instructions that can fault, about input and output, and about faults
(42_data_ops.md R173, 44_control_ops.md, 45_io_and_host.md, 60_exceptions.md). -/

namespace Sys2Proof.Machine

section Dispatch
variable (a b c : RegIdx) (raw : Word) (s : State)

theorem exec_div : exec (.div a b c) s = execDiv a b c s := rfl

theorem exec_loadp : exec (.loadp a b c) s = execLoadp b c s := rfl

theorem exec_out : exec (.out a b c) s = execOut c s := rfl

theorem exec_inp : exec (.inp a b c) s = execInp c s := rfl

theorem exec_unrec14 : exec (.unrec14 raw) s = .next s := rfl

theorem exec_unrec15 : exec (.unrec15 raw) s = .next s := rfl

end Dispatch

/-- A word that OUT accepts keeps its number as a byte (45_io_and_host.md R230). -/
theorem toNat_setWidth_byte {v : Word} (h : v.toNat ≤ 255) :
    (v.setWidth 8 : Byte).toNat = v.toNat := by
  rw [BitVec.toNat_setWidth]
  exact Nat.mod_eq_of_lt (by omega)

/-- Settles O25: the two cases of DIV; a quotient of words is a word. -/
theorem divWritesQuotientOrFaults : Obligations.DivWritesQuotientOrFaults := by
  intro a b c s
  rw [exec_div]
  obtain ⟨hne, he⟩ | ⟨hzero, he⟩ := execDiv_cases a b c s
  · rw [if_neg hne]
    refine ⟨_, he, ?_, .setReg s a _⟩
    rw [State.reg_setReg_same, BitVec.toNat_ofNat]
    exact Nat.mod_eq_of_lt (Nat.lt_of_le_of_lt (Nat.div_le_self _ _) (s.reg b).isLt)
  · rw [if_pos hzero]
    exact he

/-- Settles O36: the three cases of LOADP. -/
theorem loadpReplacesProgramAndJumps : Obligations.LoadpReplacesProgramAndJumps := by
  intro a b c s
  rw [exec_loadp]
  obtain ⟨hzero, he⟩ | ⟨g, hne, hs, he⟩ | ⟨hne, hnone, he⟩ := execLoadp_cases b c s
  · rw [if_pos hzero]
    exact ⟨_, he, rfl, fun _ => rfl, .of_store_eq rfl, rfl, rfl, rfl, rfl⟩
  · rw [if_neg hne, if_neg (by simp [hs])]
    have hwords : (s.store.setSegment 0#32 g).words 0#32 = s.store.words (s.reg b) := by
      rw [Store.words, Store.words, hs, Store.setSegment_segment_same]
    exact ⟨_, he, rfl, hwords, fun id hid => s.store.setSegment_segment_ne g hid, rfl, rfl,
      fun _ => rfl, rfl, rfl, rfl, rfl⟩
  · rw [if_neg hne, if_pos hnone]
    exact he

/-- Settles O38: the two cases of OUT. -/
theorem outEmitsByteOrFaults : Obligations.OutEmitsByteOrFaults := by
  intro a b c s
  rw [exec_out]
  obtain ⟨hle, he⟩ | ⟨hlt, he⟩ := execOut_cases c s
  · rw [if_neg (Nat.not_lt.mpr hle)]
    exact ⟨_, _, he, rfl, toNat_setWidth_byte hle, fun _ => rfl, rfl, .of_store_eq rfl, rfl, rfl,
      rfl⟩
  · rw [if_pos hlt]
    exact he

/-- IN with an answer takes it (45_io_and_host.md R231). -/
theorem exec_inp_of_next (a b : RegIdx) {c : RegIdx} {s : State} {r : InputAnswer}
    {q : InputStream} (h : s.input.next = some (r, q)) :
    exec (.inp a b c) s = .next ((s.setInput q).setReg c r.value) := by
  rw [exec_inp, execInp, h]

/-- Settles O39: IN writes the answer's value, which is the byte's or the sentinel. -/
theorem inWritesByteOrSentinel : Obligations.InWritesByteOrSentinel := by
  intro a b c s r q hq
  have hreg : ((s.setInput q).setReg c r.value).reg c = r.value := State.reg_setReg_same _ _ _
  refine ⟨_, exec_inp_of_next a b hq, fun hr => ?_, fun v hr => ?_, rfl,
    fun j hj => State.reg_setReg_ne _ _ hj, rfl, .of_store_eq rfl, rfl, rfl, rfl⟩
  · rw [hreg, hr, InputAnswer.value]
  · rw [hreg, hr, InputAnswer.value]
    exact BitVec.toNat_setWidth_of_le (by decide)

/-- Settles O40: both parts are the definition of the stream's next answer. -/
theorem inputBytesComeInOrderThenEnd : Obligations.InputBytesComeInOrderThenEnd :=
  ⟨fun _ _ => rfl, rfl⟩

/-- Settles O42: a fault writes the status alone (`OnlyStatus.setStatus`). -/
theorem raiseWritesOnlyTheStatus : Obligations.RaiseWritesOnlyTheStatus :=
  fun s cause => ⟨.setStatus s _, s.raise_status cause, rfl⟩

/-- Settles O48: the dispatch does not pass the unused fields on. -/
theorem unusedFieldsHaveNoInfluence : Obligations.UnusedFieldsHaveNoInfluence :=
  fun _ _ _ _ _ _ _ _ _ => ⟨rfl, rfl, rfl, rfl, rfl, rfl, rfl, rfl⟩

end Sys2Proof.Machine
end

section
/-! What an instruction and a step can do, said once (41_engine_cycle.md R150): `Effect` lists the
next states an instruction can answer, and `exec_effect` and `step_effect` say that there are no
others. The statements about every step are read off this list. -/

namespace Sys2Proof.Machine

/-- `Effect s i t`: from `s`, the instruction `i` can answer the next state `t`. -/
inductive Effect (s : State) : Instr → State → Prop where
  /-- A fault, by the table of 60_exceptions.md R251. -/
  | fault {i : Instr} {cause : Cause} (h : Raises i s cause) : Effect s i (s.raise cause)
  /-- CMOV on a zero condition (42_data_ops.md R170). -/
  | notMoved {a b c : RegIdx} (h : s.reg c = 0#32) : Effect s (.cmov a b c) s
  /-- A word with opcode 14 (44_control_ops.md R212). -/
  | unrec14 {raw : Word} : Effect s (.unrec14 raw) s
  /-- A word with opcode 15 (44_control_ops.md R212). -/
  | unrec15 {raw : Word} : Effect s (.unrec15 raw) s
  /-- A data operation or SLOAD, which writes its destination alone. -/
  | register {i : Instr} {r : RegIdx} (v : Word) (h : destination i = some r) :
    Effect s i (s.setReg r v)
  /-- HALT (44_control_ops.md R210). -/
  | halt {a b c : RegIdx} : Effect s (.halt a b c) (s.setStatus .halted)
  /-- SSTORE at a valid address (20_memory.md R56). -/
  | sstore {a b c : RegIdx} {g : Segment} (hs : s.store.segment (s.reg a) = some g)
    (hoff : (s.reg b).toNat < g.len) :
    Effect s (.sstore a b c)
      (s.setStore (s.store.setSegment (s.reg a) (g.set (s.reg b).toNat (s.reg c))))
  /-- MAP with an identifier left (20_memory.md R57). -/
  | map {a b c : RegIdx} {id : SegId} {st : Store}
    (h : s.store.allocate s.config (s.reg c) = .ok (id, st)) :
    Effect s (.map a b c) ((s.setStore st).setReg b id)
  /-- UNMAP of a mapped identifier (20_memory.md R58). -/
  | unmap {a b c : RegIdx} {st : Store} (h : s.store.free (s.reg c) = .ok st) :
    Effect s (.unmap a b c) (s.setStore st)
  /-- LOADP with `x[b] = 0`, which copies nothing (44_control_ops.md R211). -/
  | jump {a b c : RegIdx} (h : s.reg b = 0#32) : Effect s (.loadp a b c) (s.setPc (s.reg c))
  /-- LOADP of another segment (20_memory.md R59). -/
  | loadp {a b c : RegIdx} {g : Segment} (hs : s.store.segment (s.reg b) = some g) :
    Effect s (.loadp a b c) ((s.setStore (s.store.setSegment 0#32 g)).setPc (s.reg c))
  /-- OUT of a byte (45_io_and_host.md R230). -/
  | out {a b c : RegIdx} {v : Byte} (h : v.toNat = (s.reg c).toNat) :
    Effect s (.out a b c) (s.emit v)
  /-- IN with an answer (45_io_and_host.md R231). -/
  | inp {a b c : RegIdx} {r : InputAnswer} {q : InputStream} (h : s.input.next = some (r, q)) :
    Effect s (.inp a b c) ((s.setInput q).setReg c r.value)

/-- What an instruction does is on the list. -/
theorem exec_effect {i : Instr} {s t : State} (h : exec i s = .next t) : Effect s i t := by
  cases i with
  | cmov a b c =>
    by_cases hc : s.reg c = 0#32
    · cases (exec_cmov_of_eq_zero a b c s hc).symm.trans h; exact .notMoved hc
    · cases (exec_cmov_of_ne_zero a b c s hc).symm.trans h; exact .register _ rfl
  | add a b c => cases h; exact .register _ rfl
  | mul a b c => cases h; exact .register _ rfl
  | nand a b c => cases h; exact .register _ rfl
  | loadv a imm => cases h; exact .register _ rfl
  | halt a b c => cases h; exact .halt
  | unrec14 raw => cases h; exact .unrec14
  | unrec15 raw => cases h; exact .unrec15
  | div a b c =>
    obtain ⟨-, he⟩ | ⟨hzero, he⟩ := execDiv_cases a b c s <;> cases he.symm.trans h
    · exact .register _ rfl
    · exact .fault hzero
  | sload a b c =>
    obtain ⟨g, -, -, he⟩ | ⟨hs, he⟩ | ⟨g, hs, hoff, he⟩ := execSload_cases a b c s <;>
      cases he.symm.trans h
    · exact .register _ rfl
    · exact .fault ⟨rfl, hs⟩
    · exact .fault ⟨rfl, rfl, g, hs, hoff⟩
  | sstore a b c =>
    obtain ⟨g, hs, hoff, he⟩ | ⟨hs, he⟩ | ⟨g, hs, hoff, he⟩ := execSstore_cases a b c s <;>
      cases he.symm.trans h
    · exact .sstore hs hoff
    · exact .fault ⟨rfl, hs⟩
    · exact .fault ⟨rfl, rfl, g, hs, hoff⟩
  | map a b c =>
    obtain ⟨id, st, hst, -, he⟩ | ⟨hfull, he⟩ := execMap_cases b c s <;> cases he.symm.trans h
    · exact .map hst
    · exact .fault ⟨rfl, hfull⟩
  | unmap a b c =>
    obtain ⟨st, -, -, hst, he⟩ | ⟨hzero, he⟩ | ⟨hne, hs, he⟩ := execUnmap_cases c s <;>
      cases he.symm.trans h
    · exact .unmap hst
    · exact .fault hzero
    · exact .fault ⟨rfl, hne, hs⟩
  | loadp a b c =>
    obtain ⟨hzero, he⟩ | ⟨g, -, hs, he⟩ | ⟨hne, hs, he⟩ := execLoadp_cases b c s <;>
      cases he.symm.trans h
    · exact .jump hzero
    · exact .loadp hs
    · exact .fault ⟨rfl, hne, hs⟩
  | out a b c =>
    obtain ⟨hle, he⟩ | ⟨hlt, he⟩ := execOut_cases c s <;> cases he.symm.trans h
    · exact .out (toNat_setWidth_byte hle)
    · exact .fault ⟨rfl, hlt⟩
  | inp a b c =>
    obtain ⟨r, q, hq, he⟩ | ⟨-, he⟩ := execInp_cases c s <;> cases he.symm.trans h
    exact .inp hq

/-- A step that answers a next state faulted at the fetch, or did what the decoded instruction does
with the pc incremented. -/
theorem step_effect {s t : State} (h : step s = .next t) :
    (∃ cause, s.fetch = .error cause ∧ t = s.raiseAtFetch cause) ∨
      ∃ inst i, s.fetch = .ok inst ∧ decode inst = .ok i ∧ Effect s.advance i t := by
  obtain ⟨cause, hf, he⟩ | ⟨inst, i, hf, hd, he⟩ := step_cases (running_of_step h)
  · cases he.symm.trans h
    exact .inl ⟨cause, hf, rfl⟩
  · exact .inr ⟨inst, i, hf, hd, exec_effect (he.symm.trans h)⟩

/-! ## The status, and the table of faults -/

/-- An instruction leaves the status alone, is HALT, or faults. -/
theorem Effect.status {s t : State} {i : Instr} (h : Effect s i t) :
    t.status = s.status ∨ (t.status = .halted ∧ ∃ a b c, i = .halt a b c) ∨
      ∃ cause, Raises i s cause ∧ t = s.raise cause := by
  cases h with
  | fault h => exact .inr (.inr ⟨_, h, rfl⟩)
  | halt => exact .inr (.inl ⟨rfl, _, _, _, rfl⟩)
  | notMoved | unrec14 | unrec15 | register | sstore | map | unmap | jump | loadp | out | inp =>
    exact .inl rfl

/-- From `Running`, a faulted status is a fault of the table. -/
theorem Effect.raises_of_faulted {s t : State} {i : Instr} {cause : Cause} {info : FaultInfo}
    (h : Effect s i t) (hrun : s.status = .running) (hf : t.status = .faulted cause info) :
    Raises i s cause ∧ t = s.raise cause := by
  obtain hsame | ⟨hhalt, -⟩ | ⟨cause', hr, rfl⟩ := h.status
  · cases hf.symm.trans (hsame.trans hrun)
  · cases hf.symm.trans hhalt
  · cases hf
    exact ⟨hr, rfl⟩

theorem not_raises_contractViolation (i : Instr) (s : State) :
    ¬ Raises i s .contractViolation := by
  cases i <;> exact id

/-- Where the table says so, the fault is raised: each row is a case of its instruction's
obligation. -/
theorem exec_of_raises {i : Instr} {s : State} {cause : Cause} (h : Raises i s cause) :
    exec i s = .next (s.raise cause) := by
  unfold Raises at h
  split at h
  case h_1 a b c id =>
    obtain ⟨rfl, hs⟩ := h
    simpa only [hs] using sloadReadsWordOrFaults a b c s
  case h_2 a b c id =>
    obtain ⟨rfl, hs⟩ := h
    simpa only [hs] using sstoreWritesOneWordOrFaults a b c s _ _ rfl
  case h_3 a b c id =>
    obtain ⟨rfl, hne, hs⟩ := h
    simpa only [if_neg hne, if_pos hs] using unmapFreesIdentifierOrFaults a b c s
  case h_4 a b c id =>
    obtain ⟨rfl, hne, hs⟩ := h
    simpa only [if_neg hne, if_pos hs] using loadpReplacesProgramAndJumps a b c s
  case h_5 a b c id off =>
    obtain ⟨rfl, rfl, g, hs, hoff⟩ := h
    simpa only [hs, if_neg (Nat.not_lt.mpr hoff)] using sloadReadsWordOrFaults a b c s
  case h_6 a b c id off =>
    obtain ⟨rfl, rfl, g, hs, hoff⟩ := h
    simpa only [hs, if_neg (Nat.not_lt.mpr hoff)] using
      sstoreWritesOneWordOrFaults a b c s _ _ rfl
  case h_7 a b c => simpa only [if_pos h] using divWritesQuotientOrFaults a b c s
  case h_8 a b c v =>
    obtain ⟨rfl, hlt⟩ := h
    simpa only [if_pos hlt] using outEmitsByteOrFaults a b c s
  case h_9 a b c => simpa only [if_pos h] using unmapFreesIdentifierOrFaults a b c s
  case h_10 a b c n =>
    obtain ⟨rfl, hfull⟩ := h
    simpa only [if_pos hfull] using mapAllocatesZeroSegmentOrFaults a b c s
  case h_11 => exact h.elim

/-- Settles O43: one way by `raises_of_faulted`, the other by `exec_of_raises`. -/
theorem faultsAreThoseOfTheTable : Obligations.FaultsAreThoseOfTheTable := by
  intro i s cause hrun
  refine ⟨fun h => ?_, exec_of_raises⟩
  obtain ⟨hr, -⟩ := (exec_effect h).raises_of_faulted hrun (s.raise_status cause)
  exact hr

end Sys2Proof.Machine
end

section
/-! Proofs about the step (41_engine_cycle.md): when it has a next state, and what every step keeps,
read off `exec_effect` and `step_effect`. -/

namespace Sys2Proof.Machine

/-! ## When a step answers a next state -/

/-- A step runs the decoded instruction with the pc incremented. -/
theorem step_eq_exec {s : State} {inst : Word} {i : Instr} (hrun : s.status = .running)
    (hf : s.fetch = .ok inst) (hd : decode inst = .ok i) : step s = exec i s.advance := by
  obtain ⟨cause, hf', -⟩ | ⟨inst', i', hf', hd', he⟩ := step_cases hrun
  · cases hf.symm.trans hf'
  · cases hf.symm.trans hf'
    cases hd.symm.trans hd'
    exact he

/-- A fetch that fails is the step's fault. -/
theorem step_eq_raiseAtFetch {s : State} {cause : Cause} (hrun : s.status = .running)
    (hf : s.fetch = .error cause) : step s = .next (s.raiseAtFetch cause) := by
  obtain ⟨cause', hf', he⟩ | ⟨inst, i, hf', -, -⟩ := step_cases hrun
  · cases hf.symm.trans hf'
    exact he
  · cases hf.symm.trans hf'

/-- Whether an instruction waits does not depend on the pc. -/
theorem waits_advance {i : Instr} {s : State} : Waits i s.advance ↔ Waits i s := by
  cases i <;> exact Iff.rfl

/-- Where the fetch answers a word, the state waits if the decoded instruction does. -/
theorem awaitsInput_iff_waits {s : State} {inst : Word} {i : Instr} (hrun : s.status = .running)
    (hf : s.fetch = .ok inst) (hd : decode inst = .ok i) : s.AwaitsInput ↔ Waits i s := by
  refine ⟨fun ⟨_, inst', i', hf', hd', hw⟩ => ?_, fun hw => ⟨hrun, inst, i, hf, hd, hw⟩⟩
  cases hf.symm.trans hf'
  cases hd.symm.trans hd'
  exact hw

/-- From `Running` a step waits for the environment, or answers a next state. -/
theorem step_of_running {s : State} (hrun : s.status = .running) :
    (s.AwaitsInput ∧ step s = .fault .awaitingInput) ∨
      (¬ s.AwaitsInput ∧ ∃ t, step s = .next t) := by
  obtain ⟨cause, hf, he⟩ | ⟨inst, i, hf, hd, he⟩ := step_cases hrun
  · refine .inr ⟨fun ⟨_, _, _, hf', _⟩ => ?_, _, he⟩
    cases hf.symm.trans hf'
  · rw [he, awaitsInput_iff_waits hrun hf hd, ← waits_advance]
    exact (exec_cases i s.advance).symm

theorem runEnd_eq_none {s : State} : s.runEnd = none ↔ s.status = .running := by
  unfold State.runEnd
  cases s.status <;> simp

/-- Settles O46: `step_eq_exec`, with the fetched word as the word of segment 0 at the pc. -/
theorem stepExecutesDecodedInstruction : Obligations.StepExecutesDecodedInstruction :=
  fun _ _ _ hrun hword hd => step_eq_exec hrun (State.fetch_eq_ok.mpr hword) hd

/-- Settles O44: the read at `(0, pc)` is out of bounds, and a fault writes the status alone. -/
theorem fetchPastEndFaults : Obligations.FetchPastEndFaults := by
  intro s g hrun hs hlen
  have hf : s.fetch = .error (.offsetOutOfBounds 0#32 s.pc) := by
    rw [State.fetch, Store.read, hs]
    exact if_neg (Nat.not_lt.mpr hlen)
  exact ⟨step_eq_raiseAtFetch hrun hf, .setStatus s _, s.raiseAtFetch_status _⟩

/-- Settles O37: both instructions are inert, and a word with opcode 14 or 15 decodes to one of
them. -/
theorem unrecognizedOpcodesAreInert : Obligations.UnrecognizedOpcodesAreInert := by
  refine fun raw s => ⟨exec_unrec14 raw s, exec_unrec15 raw s, fun inst hrun hf hop => ?_⟩
  have hlt := (inst.extractLsb' 28 4).isLt
  obtain h | h : (inst.extractLsb' 28 4).toNat = 14 ∨ (inst.extractLsb' 28 4).toNat = 15 := by
    omega
  · exact step_eq_exec hrun hf (decode_of_opcode_eq_14 h)
  · exact step_eq_exec hrun hf (decode_of_opcode_eq_15 h)

/-- Settles O47: `step_of_running`; the three statuses are all there are. -/
theorem stepFromRunningCompletesOrWaits : Obligations.StepFromRunningCompletesOrWaits := by
  intro s hrun
  refine (step_of_running hrun).imp id fun ⟨hw, t, ht⟩ => ⟨hw, t, ht, ?_⟩
  cases t.status with
  | running => exact .inl rfl
  | halted => exact .inr (.inl rfl)
  | faulted cause info => exact .inr (.inr ⟨cause, info, rfl⟩)

/-- Settles O21: the end is read off the status, and a step needs a run that goes on and does not
wait (`step_of_running`). -/
theorem runEndsCleanOrAbnormal : Obligations.RunEndsCleanOrAbnormal := by
  intro s
  refine ⟨?_, ?_, runEnd_eq_none, fun ⟨t, ht⟩ => ?_, fun ⟨hend, hw⟩ => ?_⟩
  · unfold State.runEnd
    cases s.status <;> simp
  · unfold State.runEnd
    cases s.status <;> simp
  · have hrun := running_of_step ht
    obtain ⟨-, he⟩ | ⟨hw, -⟩ := step_of_running hrun
    · cases he.symm.trans ht
    · exact ⟨runEnd_eq_none.mpr hrun, hw⟩
  · obtain ⟨hw', -⟩ | ⟨-, ht⟩ := step_of_running (runEnd_eq_none.mp hend)
    · exact absurd hw' hw
    · exact ht

/-- A step whose IN has an answer takes it. -/
theorem step_inp_of_next {s : State} {inst : Word} {a b c : RegIdx} {r : InputAnswer}
    {q : InputStream} (hrun : s.status = .running) (hf : s.fetch = .ok inst)
    (hd : decode inst = .ok (.inp a b c)) (hq : s.input.next = some (r, q)) :
    step s = .next ((s.advance.setInput q).setReg c r.value) :=
  (step_eq_exec hrun hf hd).trans (exec_inp_of_next a b hq)

/-- An answer given to an empty stream is the next one, and leaves the stream as it was. -/
theorem InputStream.next_of_answer {q : InputStream} (h : q.answers = []) (r : InputAnswer) :
    ({ q with answers := q.answers ++ [r] } : InputStream).next = some (r, q) := by
  obtain ⟨answers, ended⟩ := q
  cases h
  rfl

/-- An empty stream that has ended answers `EndOfStream` (45_io_and_host.md R237). -/
theorem InputStream.next_of_ended {q : InputStream} (h : q.answers = []) :
    ({ q with ended := true } : InputStream).next =
      some (.endOfStream, { q with ended := true }) := by
  obtain ⟨answers, ended⟩ := q
  cases h
  rfl

/-- Settles O41: without an answer the stream is empty (`InputStream.next_cases`), so an answer
given to it is the next one, and once it has ended the next one is `EndOfStream`. -/
theorem inWaitsForTheEnvironment : Obligations.InWaitsForTheEnvironment := by
  intro a b c s inst hrun hf hd hnone
  obtain ⟨r, rest, -, h⟩ | ⟨-, -, h⟩ | ⟨hanswers, -, -⟩ := s.input.next_cases
  · cases h.symm.trans hnone
  · cases h.symm.trans hnone
  refine ⟨?_, runEnd_eq_none.mpr hrun, fun r => ?_, ?_⟩
  · obtain ⟨-, he⟩ | ⟨hw, -⟩ := step_of_running hrun
    · exact he
    · exact absurd ((awaitsInput_iff_waits hrun hf hd).mpr hnone) hw
  · have hq : (s.answerInput r).input.next = some (r, s.input) :=
      InputStream.next_of_answer hanswers r
    exact ⟨_, step_inp_of_next (s := s.answerInput r) hrun hf hd hq, State.reg_setReg_same _ _ _,
      fun j hj => State.reg_setReg_ne _ _ hj, .of_store_eq rfl, rfl, rfl⟩
  · have hq : s.endInput.input.next = some (.endOfStream, s.endInput.input) :=
      InputStream.next_of_ended hanswers
    exact ⟨_, step_inp_of_next (s := s.endInput) hrun hf hd hq, State.reg_setReg_same _ _ _,
      fun j hj => State.reg_setReg_ne _ _ hj, .of_store_eq rfl, rfl⟩

/-! ## What an instruction and a step leave alone -/

/-- Settles O49: on the list of effects, the registers written are destinations. -/
theorem onlyTheDestinationIsWritten : Obligations.OnlyTheDestinationIsWritten := by
  intro i s t r h hr
  have ne_of_destination : ∀ {r'}, destination i = some r' → r ≠ r' := fun hd e => hr (e ▸ hd)
  cases exec_effect h with
  | register v hd => exact State.reg_setReg_ne s v (ne_of_destination hd)
  | map hst => exact State.reg_setReg_ne _ _ (ne_of_destination rfl)
  | inp hq => exact State.reg_setReg_ne _ _ (ne_of_destination rfl)
  | fault | notMoved | unrec14 | unrec15 | halt | sstore | unmap | jump | loadp | out => rfl

/-- Settles O53: on the list of effects, the four instructions alone set the store. -/
theorem onlyStoreInstructionsTouchTheStore : Obligations.OnlyStoreInstructionsTouchTheStore := by
  intro i s t h hne
  cases exec_effect h with
  | @sstore a b c =>
    obtain ⟨hi, -, -, -⟩ := hne a b c
    exact absurd rfl hi
  | @map a b c =>
    obtain ⟨-, hi, -, -⟩ := hne a b c
    exact absurd rfl hi
  | @unmap a b c =>
    obtain ⟨-, -, hi, -⟩ := hne a b c
    exact absurd rfl hi
  | @loadp a b c =>
    obtain ⟨-, -, -, hi⟩ := hne a b c
    exact absurd rfl hi
  | fault | notMoved | unrec14 | unrec15 | register | halt | jump | out | inp => rfl

/-- Settles O51: on the list of effects, LOADP alone sets the pc. -/
theorem onlyLoadpMovesThePc : Obligations.OnlyLoadpMovesThePc := by
  intro s t inst i hf hd h hne
  have heffect := exec_effect ((step_eq_exec (running_of_step h) hf hd).symm.trans h)
  cases heffect with
  | @jump a b c => exact absurd rfl (hne a b c)
  | @loadp a b c => exact absurd rfl (hne a b c)
  | fault | notMoved | unrec14 | unrec15 | register | halt | sstore | map | unmap | out | inp => rfl

/-- Settles O52: `Effect.status`, since neither the state before nor a fault is `Halted`. -/
theorem onlyHaltHalts : Obligations.OnlyHaltHalts := by
  intro s t h hhalt
  obtain ⟨cause, -, rfl⟩ | ⟨inst, i, hf, hd, heffect⟩ := step_effect h
  · cases hhalt
  obtain hsame | ⟨-, a, b, c, rfl⟩ | ⟨cause, -, rfl⟩ := heffect.status
  · cases (hsame.trans (running_of_step (s := s) h)).symm.trans hhalt
  · exact ⟨inst, a, b, c, hf, hd⟩
  · cases hhalt

/-- Settles O54: on the list of effects, OUT alone emits. -/
theorem outputGrowsOnlyByOut : Obligations.OutputGrowsOnlyByOut := by
  intro s t h
  obtain ⟨cause, -, rfl⟩ | ⟨inst, i, hf, hd, heffect⟩ := step_effect h
  · exact .inl rfl
  cases heffect with
  | @out a b c v hv => exact .inr ⟨inst, a, b, c, v, hf, hd, rfl, hv⟩
  | fault | notMoved | unrec14 | unrec15 | register | halt | sstore | map | unmap | jump | loadp
  | inp => exact .inl rfl

/-- Settles O55: on the list of effects, IN alone takes an answer, and nothing sets the
configuration. -/
theorem inputIsConsumedOnlyByIn : Obligations.InputIsConsumedOnlyByIn := by
  intro s t h
  obtain ⟨cause, -, rfl⟩ | ⟨inst, i, hf, hd, heffect⟩ := step_effect h
  · exact ⟨rfl, .inl rfl⟩
  cases heffect with
  | @inp a b c r q hq => exact ⟨rfl, .inr ⟨inst, a, b, c, r, hf, hd, hq⟩⟩
  | fault | notMoved | unrec14 | unrec15 | register | halt | sstore | map | unmap | jump | loadp
  | out => exact ⟨rfl, .inl rfl⟩

/-- Settles O45: a faulted status comes from the fetch or from the table
(`Effect.raises_of_faulted`), and there the pc is one past the fetched word. -/
theorem faultingStepHasNoEffect : Obligations.FaultingStepHasNoEffect := by
  intro s t cause info h hfault
  obtain ⟨cause', hf, rfl⟩ | ⟨inst, i, hf, hd, heffect⟩ := step_effect h
  · cases hfault
    exact ⟨fun _ => rfl, .of_store_eq rfl, rfl, rfl, rfl, .inl ⟨hf, rfl, rfl⟩⟩
  · obtain ⟨-, rfl⟩ := heffect.raises_of_faulted (running_of_step (s := s) h) hfault
    cases hfault
    have hpc : s.advance.pc - 1#32 = s.pc := BitVec.add_sub_cancel _ _
    refine ⟨fun _ => rfl, .of_store_eq rfl, rfl, rfl, hpc, .inr ⟨inst, hf, ?_, rfl⟩⟩
    rw [hpc]
    exact State.fetch_eq_ok.mp hf

/-! ## The invariant -/

/-- A fetch does not raise a contract violation (60_exceptions.md R266). -/
theorem State.fetch_ne_contractViolation (s : State) : s.fetch ≠ .error .contractViolation := by
  intro h
  obtain ⟨g, -, -, he⟩ | ⟨-, he⟩ | ⟨g, -, -, he⟩ := s.store.read_cases 0#32 s.pc <;>
    cases he.symm.trans h

/-- Every effect keeps the invariants of the store (10_state.md R34). -/
theorem Effect.store_inv {s t : State} {i : Instr} (h : Effect s i t) (hinv : s.store.Inv) :
    t.store.Inv := by
  cases h with
  | sstore hs hoff =>
    exact hinv.setSegment hs (Segment.set_wf (Memory.wf_find hinv.canonical hs) _ hoff)
  | map hst => exact hinv.allocate hst
  | unmap hst => exact hinv.free hst
  | loadp hs =>
    obtain ⟨g0, h0⟩ := Option.isSome_iff_exists.mp hinv.programMapped
    exact hinv.setSegment h0 (Memory.wf_find hinv.canonical hs)
  | fault | notMoved | unrec14 | unrec15 | register | halt | jump | out | inp => exact hinv

/-- An effect on a running machine raises no contract violation. -/
theorem Effect.ne_contractViolation {s t : State} {i : Instr} (h : Effect s i t)
    (hrun : s.status = .running) (info : FaultInfo) :
    t.status ≠ .faulted .contractViolation info := fun hf =>
  not_raises_contractViolation i s (h.raises_of_faulted hrun hf).1

/-- Settles O60: a fault of the fetch keeps the store and is no contract violation; every effect
keeps the invariants of the store and raises none. -/
theorem everyStepKeepsTheInvariant : Obligations.EveryStepKeepsTheInvariant := by
  intro s t hinv h
  obtain ⟨cause, hf, rfl⟩ | ⟨inst, i, -, -, heffect⟩ := step_effect h
  · refine ⟨hinv.store, fun info he => ?_⟩
    cases he
    exact s.fetch_ne_contractViolation hf
  · exact ⟨heffect.store_inv hinv.store, heffect.ne_contractViolation (running_of_step (s := s) h)⟩

/-- Settles O58: the pc is below the length of segment 0, which is below 2^32. -/
theorem pcIncrementNeverWraps : Obligations.PcIncrementNeverWraps := by
  intro s inst hinv hf
  obtain ⟨g, hs, hlt, -⟩ | ⟨-, he⟩ | ⟨g, -, -, he⟩ := s.store.read_cases 0#32 s.pc
  · obtain ⟨hlen, -⟩ := Memory.wf_find hinv.store.canonical hs
    rw [BitVec.toNat_add]
    exact Nat.mod_eq_of_lt (Nat.lt_of_le_of_lt hlt hlen)
  · cases he.symm.trans hf
  · cases he.symm.trans hf

/-- Settles O56: on the list of effects, SSTORE keeps every length, MAP takes an identifier that was
not mapped, UNMAP leaves its own unmapped, and LOADP sets segment 0. -/
theorem segmentLengthsAreFixed : Obligations.SegmentLengthsAreFixed := by
  intro s t id g g' hinv h hs ht
  have len_eq_of_segment_eq (e : t.store.segment id = s.store.segment id) : g'.len = g.len := by
    cases (ht.symm.trans e).trans hs
    rfl
  obtain ⟨cause, -, rfl⟩ | ⟨inst, i, hf, hd, heffect⟩ := step_effect h
  · exact .inl (len_eq_of_segment_eq rfl)
  cases heffect with
  | @sstore a b c g0 hs0 hoff =>
    have hlen := Store.length_setSegment_set hs0 (s.reg b).toNat (s.reg c) id
    have : some g'.len = some g.len :=
      calc some g'.len = _ := (congrArg (Option.map Segment.len) ht).symm
        _ = (s.store.segment id).map Segment.len := hlen
        _ = some g.len := by rw [hs, Option.map_some]
    exact .inl (Option.some.inj this)
  | @map a b c new st hst =>
    obtain ⟨-, hnone⟩ := hinv.store.allocate_unmapped hst
    obtain ⟨-, hseg, -⟩ := Store.allocate_eq_ok hst
    have hne : id ≠ new := fun e => nomatch (e ▸ hs).symm.trans hnone
    exact .inl (len_eq_of_segment_eq ((hseg id).trans (if_neg hne)))
  | @unmap a b c st hst =>
    obtain ⟨hseg, -⟩ := Store.free_eq_ok hst
    have hne : id ≠ s.reg c := fun e => nomatch ht.symm.trans ((hseg id).trans (if_pos e))
    exact .inl (len_eq_of_segment_eq ((hseg id).trans (if_neg hne)))
  | @loadp a b c src hsrc =>
    have hseg := s.store.segment_setSegment 0#32 id src
    by_cases hzero : id = 0#32
    · cases ht.symm.trans (hseg.trans (if_pos hzero))
      exact .inr ⟨hzero, inst, a, b, c, _, hf, hd, hsrc, rfl⟩
    · exact .inl (len_eq_of_segment_eq (hseg.trans (if_neg hzero)))
  | fault | notMoved | unrec14 | unrec15 | register | halt | jump | out | inp =>
    exact .inl (len_eq_of_segment_eq rfl)

end Sys2Proof.Machine
end

section
/-! Proofs about the registers an instruction reads (10_state.md R22): two states that agree in all
but one register that the instruction does not read have next states that agree likewise. -/

namespace Sys2Proof.Machine

/-- Two states agree in everything but register `r`. -/
structure AgreesExcept (r : RegIdx) (s s' : State) : Prop where
  reg : ∀ j, j ≠ r → s'.reg j = s.reg j
  pc : s'.pc = s.pc
  status : s'.status = s.status
  store : s'.store = s.store
  out : s'.out = s.out
  input : s'.input = s.input
  config : s'.config = s.config

/-- Where the outcome `o` is a next state, `o'` is one that agrees with it in all but register
`r`. -/
def Follows (r : RegIdx) (o o' : Outcome) : Prop :=
  ∀ t, o = .next t → ∃ t', o' = .next t' ∧ AgreesExcept r t t'

namespace AgreesExcept
variable {r : RegIdx} {s s' : State}

/-- A write of register `r` itself. -/
theorem setReg_self (r : RegIdx) (s : State) (v : Word) : AgreesExcept r s (s.setReg r v) :=
  ⟨fun _ hj => State.reg_setReg_ne s v hj, rfl, rfl, rfl, rfl, rfl, rfl⟩

theorem setReg (h : AgreesExcept r s s') (i : RegIdx) (v : Word) :
    AgreesExcept r (s.setReg i v) (s'.setReg i v) :=
  ⟨fun j hj => by rw [State.reg_setReg, State.reg_setReg, h.reg j hj], h.pc, h.status, h.store,
    h.out, h.input, h.config⟩

theorem setPc (h : AgreesExcept r s s') (t : Word) : AgreesExcept r (s.setPc t) (s'.setPc t) :=
  ⟨h.reg, rfl, h.status, h.store, h.out, h.input, h.config⟩

theorem setStore (h : AgreesExcept r s s') (st : Store) :
    AgreesExcept r (s.setStore st) (s'.setStore st) :=
  ⟨h.reg, h.pc, h.status, rfl, h.out, h.input, h.config⟩

theorem setInput (h : AgreesExcept r s s') (q : InputStream) :
    AgreesExcept r (s.setInput q) (s'.setInput q) :=
  ⟨h.reg, h.pc, h.status, h.store, h.out, rfl, h.config⟩

theorem setStatus (h : AgreesExcept r s s') (x : RunStatus) :
    AgreesExcept r (s.setStatus x) (s'.setStatus x) :=
  ⟨h.reg, h.pc, rfl, h.store, h.out, h.input, h.config⟩

theorem emit (h : AgreesExcept r s s') (b : Byte) : AgreesExcept r (s.emit b) (s'.emit b) :=
  ⟨h.reg, h.pc, h.status, h.store, by rw [State.emit_out, State.emit_out, h.out], h.input,
    h.config⟩

/-- The record of a fault is read from the pc and the store, not from registers. -/
theorem raise (h : AgreesExcept r s s') (cause : Cause) :
    AgreesExcept r (s.raise cause) (s'.raise cause) :=
  ⟨h.reg, h.pc, by rw [State.raise_status, State.raise_status, h.pc, h.store], h.store, h.out,
    h.input, h.config⟩

theorem follows (h : AgreesExcept r s s') : Follows r (.next s) (.next s') := by
  rintro _ ⟨⟩
  exact ⟨s', rfl, h⟩

theorem orRaise (h : AgreesExcept r s s') {α : Type} (x : Except Cause α) {k k' : α → State}
    (hk : ∀ v, AgreesExcept r (k v) (k' v)) : Follows r (s.orRaise x k) (s'.orRaise x k') := by
  cases x with
  | ok v => exact (hk v).follows
  | error cause => exact (h.raise cause).follows

end AgreesExcept

/-- An instruction does the same in states that agree in all but a register it does not read. -/
theorem AgreesExcept.exec {r : RegIdx} {s s' : State} (h : AgreesExcept r s s') {i : Instr}
    (hr : r ∉ sources i) : Follows r (exec i s) (exec i s') := by
  have reg_eq : ∀ j ∈ sources i, s'.reg j = s.reg j := fun j hj => h.reg j fun e => hr (e ▸ hj)
  cases i with
  | cmov a b c =>
    have hb := reg_eq b (by simp [sources])
    have hc := reg_eq c (by simp [sources])
    by_cases hzero : s.reg c = 0#32
    · rw [exec_cmov_of_eq_zero a b c s hzero, exec_cmov_of_eq_zero a b c s' (hc.trans hzero)]
      exact h.follows
    · rw [exec_cmov_of_ne_zero a b c s hzero, exec_cmov_of_ne_zero a b c s' (hc ▸ hzero), hb]
      exact (h.setReg a _).follows
  | add a b c =>
    rw [exec_add, exec_add, reg_eq b (by simp [sources]), reg_eq c (by simp [sources])]
    exact (h.setReg a _).follows
  | mul a b c =>
    rw [exec_mul, exec_mul, reg_eq b (by simp [sources]), reg_eq c (by simp [sources])]
    exact (h.setReg a _).follows
  | nand a b c =>
    rw [exec_nand, exec_nand, reg_eq b (by simp [sources]), reg_eq c (by simp [sources])]
    exact (h.setReg a _).follows
  | div a b c =>
    rw [exec_div, exec_div, execDiv, execDiv, reg_eq b (by simp [sources]),
      reg_eq c (by simp [sources])]
    exact h.orRaise _ fun v => h.setReg a v
  | sload a b c =>
    rw [exec_sload, exec_sload, execSload, execSload, loadAddress, loadAddress, h.store,
      reg_eq b (by simp [sources]), reg_eq c (by simp [sources])]
    exact h.orRaise _ fun v => h.setReg a v
  | sstore a b c =>
    rw [exec_sstore, exec_sstore, execSstore, execSstore, storeAddress, storeAddress, h.store,
      reg_eq a (by simp [sources]), reg_eq b (by simp [sources]), reg_eq c (by simp [sources])]
    exact h.orRaise _ fun st => h.setStore st
  | map a b c =>
    rw [exec_map, exec_map, execMap, execMap, h.store, h.config, reg_eq c (by simp [sources])]
    exact h.orRaise _ fun p => (h.setStore p.2).setReg b p.1
  | unmap a b c =>
    rw [exec_unmap, exec_unmap, execUnmap, execUnmap, h.store, reg_eq c (by simp [sources])]
    exact h.orRaise _ fun st => h.setStore st
  | out a b c =>
    rw [exec_out, exec_out, execOut, execOut, reg_eq c (by simp [sources])]
    exact h.orRaise _ fun v => h.emit v
  | loadp a b c =>
    rw [exec_loadp, exec_loadp, execLoadp, execLoadp, h.store, reg_eq b (by simp [sources]),
      reg_eq c (by simp [sources])]
    split
    · exact (h.setPc _).follows
    · exact h.orRaise _ fun st => (h.setStore st).setPc _
  | inp a b c =>
    rw [exec_inp, exec_inp, execInp, execInp, h.input]
    cases s.input.next with
    | none => exact nofun
    | some p => exact ((h.setInput p.2).setReg c p.1.value).follows
  | loadv a imm => exact (h.setReg a _).follows
  | halt a b c => exact (h.setStatus .halted).follows
  | unrec14 raw => exact h.follows
  | unrec15 raw => exact h.follows

/-- Settles O50: a write of a register gives a state that agrees in all others
(`AgreesExcept.exec`). -/
theorem unreadRegistersHaveNoInfluence : Obligations.UnreadRegistersHaveNoInfluence := by
  intro i s t r v hr h
  obtain ⟨t', ht', hagree⟩ := (AgreesExcept.setReg_self r s v).exec hr t h
  exact ⟨t', ht', hagree.reg, hagree.pc, hagree.status, hagree.store, hagree.out, hagree.input,
    hagree.config⟩

end Sys2Proof.Machine
end

section
/-! Proofs about the codec's laws (40_bitfield_codec.md R122, R131, R132) and about encoding as an
application of the codec (30_encoding.md R104). What `replaceField` does to this field, to another
field, and to itself is said once. -/

namespace Sys2Proof.Machine

/-! ## Replacing a field -/

/-- Replacing a field by what it holds changes nothing. -/
theorem replaceField_fieldNat (word : CWord) (width lsb : Nat) :
    replaceField word width lsb (fieldNat word width lsb) = word := by
  apply BitVec.eq_of_getLsbD_eq
  intro i hi
  rw [replaceField_getLsbD word (fieldNat_lt word width lsb), decide_eq_true hi, Bool.true_and]
  split
  · next h =>
    rw [fieldNat_testBit, decide_eq_true (by omega), Bool.true_and, Nat.add_sub_cancel' h.1]
  · rfl

/-- Of two replacements of one field, the last one counts. -/
theorem replaceField_replaceField (word : CWord) {width lsb f f' : Nat} (hf : f < 2 ^ width)
    (hf' : f' < 2 ^ width) :
    replaceField (replaceField word width lsb f) width lsb f' = replaceField word width lsb f' := by
  apply BitVec.eq_of_getLsbD_eq
  intro i hi
  rw [replaceField_getLsbD _ hf', replaceField_getLsbD _ hf', replaceField_getLsbD _ hf,
    decide_eq_true hi]
  split
  · rfl
  · rw [Bool.true_and]

/-- Replacing a field leaves a field that does not overlap it as it was. -/
theorem fieldNat_replaceField_disjoint (word : CWord) {w1 l1 w2 l2 f : Nat} (hf : f < 2 ^ w1)
    (hv : w2 + l2 ≤ 64) (h : l1 + w1 ≤ l2 ∨ l2 + w2 ≤ l1) :
    fieldNat (replaceField word w1 l1 f) w2 l2 = fieldNat word w2 l2 := by
  refine Nat.eq_of_testBit_eq fun i => ?_
  rw [fieldNat_testBit, fieldNat_testBit]
  by_cases hi : i < w2
  · rw [replaceField_getLsbD word hf, decide_eq_true (by omega : l2 + i < 64), if_neg (by omega),
      Bool.true_and]
  · rw [decide_eq_false hi, Bool.false_and, Bool.false_and]

section Clear
variable {word : CWord} {width lsb : Nat} (hclear : fieldNat word width lsb = 0)
include hclear

theorem getLsbD_of_fieldNat_eq_zero {i : Nat} (h1 : lsb ≤ i) (h2 : i < lsb + width) :
    word.getLsbD i = false := by
  have := fieldNat_testBit word width lsb (i - lsb)
  rw [hclear, Nat.zero_testBit, decide_eq_true (by omega), Bool.true_and,
    Nat.add_sub_cancel' h1] at this
  exact this.symm

/-- A word whose field is zero has no bit in common with a value shifted into that field. -/
theorem and_shifted_of_fieldNat_eq_zero {f : Nat} (hf : f < 2 ^ width) :
    word &&& BitVec.ofNat 64 (f * 2 ^ lsb) = 0#64 := by
  apply BitVec.eq_of_getLsbD_eq
  intro i hi
  rw [BitVec.getLsbD_and, BitVec.getLsbD_ofNat, ← Nat.shiftLeft_eq, Nat.testBit_shiftLeft,
    BitVec.getLsbD_zero]
  by_cases h1 : lsb ≤ i
  · by_cases h2 : i < lsb + width
    · rw [getLsbD_of_fieldNat_eq_zero hclear h1 h2, Bool.false_and]
    · have : f.testBit (i - lsb) = false := Nat.testBit_lt_two_pow
        (Nat.lt_of_lt_of_le hf (Nat.pow_le_pow_right (by decide) (by omega)))
      simp [this]
  · simp [h1]

/-- Into a field of zeros, a replacement adds the shifted value. -/
theorem replaceField_toNat_of_fieldNat_eq_zero (hv : ValidField width lsb) {f : Nat}
    (hf : f < 2 ^ width) :
    (replaceField word width lsb f).toNat = word.toNat + f * 2 ^ lsb := by
  have hmask : word &&& ~~~(fieldMask width lsb) = word := by
    apply BitVec.eq_of_getLsbD_eq
    intro i hi
    rw [BitVec.getLsbD_and, BitVec.getLsbD_not, fieldMask_getLsbD]
    by_cases h : lsb ≤ i ∧ i < lsb + width
    · rw [getLsbD_of_fieldNat_eq_zero hclear h.1 h.2, Bool.false_and]
    · simp [hi, h]
  have hlt : f * 2 ^ lsb < 2 ^ 64 :=
    calc f * 2 ^ lsb < 2 ^ width * 2 ^ lsb := Nat.mul_lt_mul_of_pos_right hf (Nat.two_pow_pos lsb)
      _ = 2 ^ (width + lsb) := (Nat.pow_add 2 width lsb).symm
      _ ≤ 2 ^ 64 := Nat.pow_le_pow_right (by decide) hv.2
  have hdisjoint := and_shifted_of_fieldNat_eq_zero hclear hf
  rw [replaceField, hmask, ← BitVec.add_eq_or_of_and_eq_zero _ _ hdisjoint,
    BitVec.toNat_add_of_and_eq_zero hdisjoint, BitVec.toNat_ofNat, Nat.mod_eq_of_lt hlt]

end Clear

/-! ## What the functions answer -/

section Branches
variable {width lsb : Nat} {word w : CWord}

/-- A `set_unsigned` that answers a word has replaced the field. -/
theorem setUnsigned_eq_ok {value : CWord} (h : setUnsigned word width lsb value = .ok w) :
    value.toNat < 2 ^ width ∧ w = replaceField word width lsb value.toNat := by
  by_cases hv : ValidField width lsb
  · by_cases hfit : value.toNat < 2 ^ width
    · cases (setUnsigned_ok word hv hfit).symm.trans h
      exact ⟨hfit, rfl⟩
    · cases (setUnsigned_doesNotFit word hv hfit).symm.trans h
  · cases (setUnsigned_violation word hv value).symm.trans h

/-- A `set_signed` that answers a word has replaced the field by the two's complement. -/
theorem setSigned_eq_ok {value : Int} (h : setSigned word width lsb value = .ok w) :
    w = replaceField word width lsb (toTwos width value) := by
  by_cases hv : ValidField width lsb
  · by_cases hfit : FitsSigned value width
    · cases (setSigned_ok word hv hfit).symm.trans h
      rfl
    · cases (setSigned_doesNotFit word hv hfit).symm.trans h
  · cases (setSigned_violation word hv value).symm.trans h

theorem fitsUnsigned_ok (h : ValidWidth width) (value : CWord) :
    fitsUnsigned value width = .ok (decide (value.toNat < 2 ^ width)) := if_pos h

theorem fitsSigned_ok (h : ValidWidth width) (value : Int) :
    fitsSigned value width = .ok (decide (FitsSigned value width)) := if_pos h

end Branches

/-- Settles O7: each function answers the violation in its branch for a bad field, and in no
other. -/
theorem codecViolationExactlyOnBadField : Obligations.CodecViolationExactlyOnBadField := by
  intro word value v width lsb
  rw [← validField_iff]
  refine ⟨⟨fun h hw => ?_, fun hw => if_neg hw⟩, ⟨fun h hw => ?_, fun hw => if_neg hw⟩,
    ⟨fun h hv => ?_, getUnsigned_violation word⟩, ⟨fun h hv => ?_, getSigned_violation word⟩,
    ⟨fun h hv => ?_, fun hv => setUnsigned_violation word hv value⟩,
    ⟨fun h hv => ?_, fun hv => setSigned_violation word hv v⟩⟩
  · cases (fitsUnsigned_ok hw value).symm.trans h
  · cases (fitsSigned_ok hw v).symm.trans h
  · cases (getUnsigned_ok word hv).symm.trans h
  · cases (getSigned_ok word hv).symm.trans h
  · by_cases hfit : value.toNat < 2 ^ width
    · cases (setUnsigned_ok word hv hfit).symm.trans h
    · cases (setUnsigned_doesNotFit word hv hfit).symm.trans h
  · by_cases hfit : FitsSigned v width
    · cases (setSigned_ok word hv hfit).symm.trans h
    · cases (setSigned_doesNotFit word hv hfit).symm.trans h

/-- Settles O14: either set replaces its field, and the two gets read nothing but the other. -/
theorem codecSetLeavesOtherFields : Obligations.CodecSetLeavesOtherFields := by
  intro word w w1 l1 w2 l2 hw1 hl1 hw2 hl2 hdisjoint hset
  have hfield : fieldNat w w2 l2 = fieldNat word w2 l2 := by
    obtain ⟨v, h⟩ | ⟨v, h⟩ := hset
    · obtain ⟨hfit, rfl⟩ := setUnsigned_eq_ok h
      exact fieldNat_replaceField_disjoint word hfit hl2 hdisjoint
    · obtain rfl := setSigned_eq_ok h
      exact fieldNat_replaceField_disjoint word (toTwos_lt w1 v) hl2 hdisjoint
  have hv := validField_of_le hw2 hl2
  exact ⟨by rw [getUnsigned_ok w hv, getUnsigned_ok word hv, hfield],
    by rw [getSigned_ok w hv, getSigned_ok word hv, hfield]⟩

/-- The two's complement of a valid width as a codec word. -/
theorem toNat_ofInt_emod {width : Nat} (h : width ≤ 64) (v : Int) :
    (BitVec.ofInt 64 (v % (2 : Int) ^ width)).toNat = toTwos width v := by
  have hlt : toTwos width v < 2 ^ 64 :=
    Nat.lt_of_lt_of_le (toTwos_lt width v) (Nat.pow_le_pow_right (by decide) h)
  rw [← toTwos_cast, BitVec.ofInt_natCast, BitVec.toNat_ofNat, Nat.mod_eq_of_lt hlt]

/-- Settles O15: what `get` answers is the field, unsigned or by `ofTwos`; setting it back is
`replaceField_fieldNat`, and the second set of a field is `replaceField_replaceField`. -/
theorem codecGetAndSetAgree : Obligations.CodecGetAndSetAgree := by
  intro word width lsb hw hl
  have hv := validField_of_le hw hl
  have hwidth : ValidWidth width := hv.1
  refine ⟨⟨_, _, getUnsigned_ok word hv, getSigned_ok word hv, ?_⟩, fun v hfit => ?_,
    fun v hfit => ?_, fun v1 v2 w hset => ?_⟩
  · have hlt := fieldNat_lt word width lsb
    have hnat : (BitVec.ofNat 64 (fieldNat word width lsb)).toNat = fieldNat word width lsb :=
      Nat.mod_eq_of_lt (fieldNat_lt_64 word hv)
    have hfits := ofTwos_fitsSigned hw hlt
    refine ⟨by rw [ofTwos_emod hlt, hnat], ?_, ?_, ?_, ?_⟩
    · rw [fitsUnsigned_ok hwidth, hnat, decide_eq_true hlt]
    · rw [fitsSigned_ok hwidth, decide_eq_true hfits]
    · rw [setUnsigned_ok word hv (hnat.symm ▸ hlt), hnat, replaceField_fieldNat]
    · rw [setSigned_ok word hv hfits, toTwos_ofTwos hlt, replaceField_fieldNat]
  · rw [fitsSigned_ok hwidth, CodecOutcome.ok.injEq, decide_eq_true_iff] at hfit
    have hnat := toNat_ofInt_emod hwidth.2 v
    rw [setSigned_ok word hv hfit, setUnsigned_ok word hv (hnat.symm ▸ toTwos_lt width v), hnat]
  · rw [fitsSigned_ok hwidth, CodecOutcome.ok.injEq, decide_eq_false_iff_not] at hfit
    exact setSigned_doesNotFit word hv hfit
  · obtain ⟨hfit1, rfl⟩ := setUnsigned_eq_ok hset
    by_cases hfit2 : v2.toNat < 2 ^ width
    · rw [setUnsigned_ok _ hv hfit2, setUnsigned_ok word hv hfit2,
        replaceField_replaceField word hfit1 hfit2]
    · rw [setUnsigned_doesNotFit _ hv hfit2, setUnsigned_doesNotFit word hv hfit2]

/-- Settles O17: the block's selection and the outcome codes are definitions. -/
theorem codecBlockSelectsFunction : Obligations.CodecBlockSelectsFunction :=
  fun _ _ _ _ => ⟨rfl, rfl, rfl, rfl, rfl, rfl, rfl, rfl, rfl, rfl, rfl⟩

/-- `set_unsigned` into a field of zeros, as a number. -/
theorem setUnsigned_of_clear {word value : CWord} {width lsb : Nat} (hv : ValidField width lsb)
    (hclear : word.toNat / 2 ^ lsb % 2 ^ width = 0) (hfit : value.toNat < 2 ^ width) :
    ∃ w, setUnsigned word width lsb value = .ok w ∧ w.toNat = word.toNat + value.toNat * 2 ^ lsb :=
  ⟨_, setUnsigned_ok word hv hfit, replaceField_toNat_of_fieldNat_eq_zero hclear hv hfit⟩

end Sys2Proof.Machine

namespace Sys2Proof

theorem setWidth_reg_toNat (r : RegIdx) : (r.setWidth 64).toNat = r.toNat :=
  BitVec.toNat_setWidth_of_le (by decide)

theorem setWidth_imm_toNat (imm : Imm) : (imm.setWidth 64).toNat = imm.toNat :=
  BitVec.toNat_setWidth_of_le (by decide)

theorem setWidth_word_toNat (w : Word) : (w.setWidth 64).toNat = w.toNat :=
  BitVec.toNat_setWidth_of_le (by decide)

/-- The four calls for a three-register word build `encodeThree`. -/
theorem codecEncodeThree_eq {op : Nat} (hop : op < 16) (a b c : RegIdx) :
    codecEncodeThree op (a.setWidth 64) (b.setWidth 64) (c.setWidth 64) =
      .ok ((encodeThree op a b c).setWidth 64) := by
  have hopNat : (BitVec.ofNat 64 op).toNat = op := Nat.mod_eq_of_lt (by omega)
  have ha := setWidth_reg_toNat a
  have hb := setWidth_reg_toNat b
  have hc := setWidth_reg_toNat c
  have hzero : (0#64).toNat = 0 := rfl
  obtain ⟨w1, h1, n1⟩ := Machine.setUnsigned_of_clear (word := 0#64) (value := BitVec.ofNat 64 op)
    (width := 4) (lsb := 28) (by decide) rfl (by omega)
  obtain ⟨w2, h2, n2⟩ := Machine.setUnsigned_of_clear (word := w1) (value := a.setWidth 64)
    (width := 3) (lsb := 6) (by decide) (by omega) (by omega)
  obtain ⟨w3, h3, n3⟩ := Machine.setUnsigned_of_clear (word := w2) (value := b.setWidth 64)
    (width := 3) (lsb := 3) (by decide) (by omega) (by omega)
  obtain ⟨w4, h4, n4⟩ := Machine.setUnsigned_of_clear (word := w3) (value := c.setWidth 64)
    (width := 3) (lsb := 0) (by decide) (by omega) (by omega)
  simp only [codecEncodeThree, h1, h2, h3, h4, Machine.CodecOutcome.andThen]
  refine congrArg _ (BitVec.eq_of_toNat_eq ?_)
  rw [setWidth_word_toNat, encodeThree_toNat hop]
  omega

/-- The first two calls for a load-value word put the opcode and the register in place. -/
theorem codecEncodeLoadValue_eq_setUnsigned (a : RegIdx) :
    ∃ w : CWord, w.toNat = 13 * 2 ^ 28 + a.toNat * 2 ^ 25 ∧
      ∀ imm, codecEncodeLoadValue (a.setWidth 64) imm = Machine.setUnsigned w 25 0 imm := by
  have ha := setWidth_reg_toNat a
  have hzero : (0#64).toNat = 0 := rfl
  have hop : (13#64).toNat = 13 := rfl
  obtain ⟨w1, h1, n1⟩ := Machine.setUnsigned_of_clear (word := 0#64) (value := 13#64)
    (width := 4) (lsb := 28) (by decide) rfl (by decide)
  obtain ⟨w2, h2, n2⟩ := Machine.setUnsigned_of_clear (word := w1) (value := a.setWidth 64)
    (width := 3) (lsb := 25) (by decide) (by omega) (by omega)
  refine ⟨w2, by omega, fun imm => ?_⟩
  simp only [codecEncodeLoadValue, h1, h2, Machine.CodecOutcome.andThen]

theorem codecEncodeLoadValue_eq (a : RegIdx) (imm : Imm) :
    codecEncodeLoadValue (a.setWidth 64) (imm.setWidth 64) =
      .ok ((encode (.loadv a imm)).setWidth 64) := by
  have himm := setWidth_imm_toNat imm
  obtain ⟨w, hw, heq⟩ := codecEncodeLoadValue_eq_setUnsigned a
  obtain ⟨w3, h3, n3⟩ := Machine.setUnsigned_of_clear (word := w) (value := imm.setWidth 64)
    (width := 25) (lsb := 0) (by decide) (by omega) (by omega)
  rw [heq, h3]
  refine congrArg _ (BitVec.eq_of_toNat_eq ?_)
  rw [setWidth_word_toNat, encode_loadv_toNat]
  omega

/-- Settles O6: the calls for the two formats, and the last of the load-value calls where the
immediate does not fit. -/
theorem encodingIsCodecInsertion : Obligations.EncodingIsCodecInsertion := by
  refine ⟨fun op a b c i hi => ?_, codecEncodeLoadValue_eq, fun a imm himm => ?_⟩
  · obtain ⟨hop, -, -, henc, -⟩ := threeRegister_eq_some hi
    rw [henc]
    exact codecEncodeThree_eq (by omega) a b c
  · obtain ⟨w, -, heq⟩ := codecEncodeLoadValue_eq_setUnsigned a
    rw [heq]
    exact Machine.setUnsigned_doesNotFit w (by decide) (Nat.not_lt.mpr himm)

end Sys2Proof
end

section
/-! Proofs about reset and the loader (10_state.md R39, 45_io_and_host.md R232). -/

namespace Sys2Proof.Machine

/-! ## Reset -/

/-- The store at reset maps 0, to the words of the program, and nothing else. -/
theorem State.boot_segment (cfg : Config) (program : List Word) (q : InputStream) (id : SegId) :
    (State.boot cfg program q).store.segment id =
      if id = 0#32 then some (Segment.ofWords program) else none := by
  simp only [eq_comm (a := id), ← BitVec.toNat_inj]
  rfl

/-- A store with segment 0 alone meets the invariants (10_state.md R34). -/
theorem Store.Inv.of_program {g : Segment} (hg : g.wf) :
    ({ Store.reset with seg := [(0, g)] } : Store).Inv where
  canonical := ⟨List.pairwise_singleton _ _, fun e he => by
    cases List.mem_singleton.mp he
    exact ⟨Nat.two_pow_pos 32, hg⟩⟩
  programMapped := rfl
  programNotFree := List.not_mem_nil
  mappedOrFree id hlt hle := absurd hlt (Nat.not_lt.mpr hle)
  mappedBelow e he := by
    cases List.mem_singleton.mp he
    exact Nat.one_pos
  freeBelow _ h := absurd h List.not_mem_nil
  poolNodup := List.nodup_nil
  nextPos := Nat.le_refl 1
  nextLe := Nat.one_le_two_pow

theorem State.boot_inv (cfg : Config) {program : List Word} (q : InputStream)
    (h : program.length < 2 ^ 32) : (State.boot cfg program q).Inv where
  store := .of_program (Segment.ofWords_wf h)
  noContractViolation _ := nofun

/-- Settles O59: the reset state is the one with the image of no words. -/
theorem resetMeetsTheInvariant : Obligations.ResetMeetsTheInvariant :=
  ⟨State.boot_inv Config.default (program := []) { answers := [], ended := true } (by decide),
    fun cfg _ q h => State.boot_inv cfg q h⟩

/-- Settles O19: the segments at reset are `boot_segment`, and the other fields are those of
`State.boot`. -/
theorem resetSeedsSegmentZero : Obligations.ResetSeedsSegmentZero := by
  intro cfg program q
  have hseg := State.boot_segment cfg program q
  refine ⟨State.boot_reg cfg program q, rfl, rfl, ?_, fun id hid => (hseg id).trans (if_neg hid),
    rfl, rfl, rfl, rfl, rfl⟩
  rw [Store.words, hseg, if_pos rfl, Option.map_some, Segment.ofWords_words]

/-! ## The loader -/

/-- Four bytes of an image make a word, the most significant first (20_memory.md R52). -/
theorem imageWord_toNat (b0 b1 b2 b3 : Byte) :
    (imageWord b0 b1 b2 b3).toNat =
      b0.toNat * 2 ^ 24 + b1.toNat * 2 ^ 16 + b2.toNat * 2 ^ 8 + b3.toNat := by
  rw [imageWord, BitVec.toNat_ofNat]
  omega

theorem imageWords_cons (b0 b1 b2 b3 : Byte) (rest : List Byte) :
    imageWords (b0 :: b1 :: b2 :: b3 :: rest) =
      (imageWords rest).map (fun ws => imageWord b0 b1 b2 b3 :: ws) := by
  rw [imageWords]

/-- Settles O20: by the loader's recursion, four bytes at a time; word `k` of the image is word
`k - 1` of the image after the first four bytes. -/
theorem imageIsBigEndianWords : Obligations.ImageIsBigEndianWords := by
  intro bytes
  induction bytes using imageWords.induct with
  | case1 => exact ⟨[], rfl, rfl, fun k hk => absurd hk (Nat.not_lt_zero k)⟩
  | case2 b0 b1 b2 b3 rest ih =>
    rw [imageWords_cons]
    have hlen : (b0 :: b1 :: b2 :: b3 :: rest).length = rest.length + 4 := rfl
    rw [hlen, Nat.add_mod_right]
    split at ih
    · next hmod =>
      obtain ⟨ws, hws, hcount, hword⟩ := ih
      rw [if_pos hmod, hws]
      refine ⟨_, rfl, by rw [List.length_cons]; omega, fun k hk => ?_⟩
      cases k with
      | zero => exact imageWord_toNat b0 b1 b2 b3
      | succ k => exact hword k (Nat.lt_of_succ_lt_succ hk)
    · next hmod => rw [if_neg hmod, ih]; rfl
  | case3 => rfl
  | case4 => rfl
  | case5 => rfl

end Sys2Proof.Machine
end
